-- ==== Sys2Proof/Word.lean ====
section
/-! DEFINITION. The word types of the LQP: what the spec treats as bits, with the spec's widths
(00_scope.md section 5 and rule R5; all quantities are unsigned). -/

namespace Sys2Proof

/-- One byte of `BUF` (20_memory.md R30). -/
abbrev Byte := BitVec 8
/-- One channel of a pixel (00_scope.md R5, `CHAN_BITS`). -/
abbrev Channel := BitVec 8
/-- `W`, `H`, x, y and the fields `a`, `b` (00_scope.md R5, `COORD_BITS`). -/
abbrev Coord := BitVec 16
/-- The field `d` and the `value` of a response (30_encoding.md R50, R53). -/
abbrev Data := BitVec 32
/-- The field `op` (30_encoding.md R50). -/
abbrev OpBits := BitVec 4
/-- A command word (00_scope.md R5, `CMD_BITS`; 30_encoding.md R50). -/
abbrev CmdWord := BitVec 68
/-- A response word (00_scope.md R5, `RSP_BITS`; 30_encoding.md R53). -/
abbrev RspWord := BitVec 36
/-- A BinaryLevel: 1 is drawn, black; 0 is background (30_encoding.md R58). -/
abbrev BinaryLevel := BitVec 1
/-- A GrayLevel: 0 background, 1 light gray, 2 mid gray, 3 black (30_encoding.md R58). -/
abbrev GrayLevel := BitVec 2

end Sys2Proof
end

