-- ==== Sys2Proof/Syntax.lean ====
section
/-! DEFINITION. The commands of the LQP as syntax: one constructor per row of spec/opcode_table.json
(30_encoding.md R55), each with the operands the command reads and nothing else (R57: an unread
field of the word takes no part in a command). -/

namespace Sys2Proof

/-- The format tag of a buffer (10_state.md R12): `Format = OneBit | TwoBit`. -/
inductive Format where
  /-- 1-bit row-major -/
  | oneBit
  /-- 2-bit column-major -/
  | twoBit
  deriving DecidableEq, Repr

/-- A decoded pixel (30_encoding.md R52): four 8-bit channels. -/
structure Pixel where
  r : Channel
  g : Channel
  b : Channel
  a : Channel
  deriving DecidableEq, Repr

/-- The twelve commands (30_encoding.md R55). -/
inductive Instr where
  /-- no operation (43_control_readout.md R130) -/
  | nop
  /-- begin a 1-bit buffer of `w` by `h` pixels (41_packer_1bit.md R93) -/
  | start1 (w h : Coord)
  /-- begin a 2-bit buffer of `w` by `h` pixels (42_packer_2bit.md R113) -/
  | start2 (w h : Coord)
  /-- the luminance of a pixel; its alpha is an operand that has no effect (40_quantizer.md R73; DESIGN
  CHOICE, notes/assumptions/10.md) -/
  | lum (p : Pixel)
  /-- the BinaryLevel of a pixel (40_quantizer.md R74) -/
  | quant1 (p : Pixel)
  /-- the GrayLevel of a pixel (40_quantizer.md R75) -/
  | quant2 (p : Pixel)
  /-- write a BinaryLevel at (x, y) (41_packer_1bit.md R95) -/
  | put1 (x y : Coord) (v : BinaryLevel)
  /-- write a GrayLevel at (x, y) (42_packer_2bit.md R115) -/
  | put2 (x y : Coord) (g : GrayLevel)
  /-- quantize a pixel to 1 bit and write it at (x, y) (41_packer_1bit.md R98) -/
  | pix1 (x y : Coord) (p : Pixel)
  /-- quantize a pixel to 2 bits and write it at (x, y) (42_packer_2bit.md R120) -/
  | pix2 (x y : Coord) (p : Pixel)
  /-- read the buffer byte at index `i` (43_control_readout.md R131) -/
  | rdbuf (i : Data)
  /-- read the register of number `n` (43_control_readout.md R132) -/
  | rdreg (n : Coord)
  deriving DecidableEq, Repr

end Sys2Proof
end

