-- ==== Sys2Proof/Decode.lean ====
section
/-! DEFINITION. The decoder of a 68-bit command word, total and rejecting by name, and the encoder
(30_encoding.md R50 to R52, R55 to R58, R62; spec/opcode_table.json). -/

namespace Sys2Proof

/-- Why a word is none of the twelve commands. Raised by `decode` alone; the step turns it into the
error `E_OP` (30_encoding.md R56), so it stops nothing. -/
inductive DecodeError where
  /-- an opcode in `0xC .. 0xF` -/
  | reservedOpcode (op : OpBits)
  deriving DecidableEq, Repr

/-- `cmd[67:64]` (30_encoding.md R50). -/
def opField (w : CmdWord) : OpBits := w.extractLsb' 64 4
/-- `cmd[63:48]` (30_encoding.md R50). -/
def aField (w : CmdWord) : Coord := w.extractLsb' 48 16
/-- `cmd[47:32]` (30_encoding.md R50). -/
def bField (w : CmdWord) : Coord := w.extractLsb' 32 16
/-- `cmd[31:0]` (30_encoding.md R50). -/
def dField (w : CmdWord) : Data := w.extractLsb' 0 32

/-- The word `{op, a, b, d}` (30_encoding.md R50). -/
def mkWord (op : OpBits) (a b : Coord) (d : Data) : CmdWord := op ++ a ++ b ++ d

/-- The pixel in the field `d` (30_encoding.md R52). -/
def pixelOf (d : Data) : Pixel where
  r := d.extractLsb' 24 8
  g := d.extractLsb' 16 8
  b := d.extractLsb' 8 8
  a := d.extractLsb' 0 8

/-- The field `d` that holds a pixel: `{R, G, B, A}` (30_encoding.md R52). -/
def dataOf (p : Pixel) : Data := p.r ++ p.g ++ p.b ++ p.a

/-- The command that the four fields of a word select (30_encoding.md R55): `op` alone selects it, and
the fields it does not read are dropped (R57). -/
def decodeFields (op : OpBits) (a b : Coord) (d : Data) : Except DecodeError Instr :=
  match op.toNat with
  | 0x0 => .ok .nop
  | 0x1 => .ok (.start1 a b)
  | 0x2 => .ok (.start2 a b)
  | 0x3 => .ok (.lum (pixelOf d))
  | 0x4 => .ok (.quant1 (pixelOf d))
  | 0x5 => .ok (.quant2 (pixelOf d))
  | 0x6 => .ok (.put1 a b (d.extractLsb' 0 1))
  | 0x7 => .ok (.put2 a b (d.extractLsb' 0 2))
  | 0x8 => .ok (.pix1 a b (pixelOf d))
  | 0x9 => .ok (.pix2 a b (pixelOf d))
  | 0xA => .ok (.rdbuf d)
  | 0xB => .ok (.rdreg a)
  | _ => .error (.reservedOpcode op)

/-- The decoder (30_encoding.md R56): total on the `2^68` command words. -/
def decode (w : CmdWord) : Except DecodeError Instr :=
  decodeFields (opField w) (aField w) (bField w) (dField w)

/-- The opcode of a command (30_encoding.md R55). -/
def Instr.opcode : Instr → OpBits
  | .nop => 0x0
  | .start1 _ _ => 0x1
  | .start2 _ _ => 0x2
  | .lum _ => 0x3
  | .quant1 _ => 0x4
  | .quant2 _ => 0x5
  | .put1 _ _ _ => 0x6
  | .put2 _ _ _ => 0x7
  | .pix1 _ _ _ => 0x8
  | .pix2 _ _ _ => 0x9
  | .rdbuf _ => 0xA
  | .rdreg _ => 0xB

/-- The field `a` a command assembles to (30_encoding.md R60: an unread field is 0). -/
def Instr.aOperand : Instr → Coord
  | .nop => 0
  | .start1 w _ => w
  | .start2 w _ => w
  | .lum _ => 0
  | .quant1 _ => 0
  | .quant2 _ => 0
  | .put1 x _ _ => x
  | .put2 x _ _ => x
  | .pix1 x _ _ => x
  | .pix2 x _ _ => x
  | .rdbuf _ => 0
  | .rdreg n => n

/-- The field `b` a command assembles to (30_encoding.md R60). -/
def Instr.bOperand : Instr → Coord
  | .nop => 0
  | .start1 _ h => h
  | .start2 _ h => h
  | .lum _ => 0
  | .quant1 _ => 0
  | .quant2 _ => 0
  | .put1 _ y _ => y
  | .put2 _ y _ => y
  | .pix1 _ y _ => y
  | .pix2 _ y _ => y
  | .rdbuf _ => 0
  | .rdreg _ => 0

/-- The field `d` a command assembles to (30_encoding.md R60). -/
def Instr.dOperand : Instr → Data
  | .nop => 0
  | .start1 _ _ => 0
  | .start2 _ _ => 0
  | .lum p => dataOf p
  | .quant1 p => dataOf p
  | .quant2 p => dataOf p
  | .put1 _ _ v => v.zeroExtend 32
  | .put2 _ _ g => g.zeroExtend 32
  | .pix1 _ _ p => dataOf p
  | .pix2 _ _ p => dataOf p
  | .rdbuf i => i
  | .rdreg _ => 0

/-- The word of a command (30_encoding.md R60, R62). -/
def encode (i : Instr) : CmdWord := mkWord i.opcode i.aOperand i.bOperand i.dOperand

/-- The bits of a word that the command of its opcode uses, as the column "reads" of 30_encoding.md R55
gives them (R57: every other bit is ignored). The opcode itself is always read; LUM uses no alpha. -/
def readMask (op : OpBits) : CmdWord :=
  match op.toNat with
  | 0x0 => mkWord 0xF 0 0 0
  | 0x1 => mkWord 0xF 0xFFFF 0xFFFF 0
  | 0x2 => mkWord 0xF 0xFFFF 0xFFFF 0
  | 0x3 => mkWord 0xF 0 0 0xFFFFFF00
  | 0x4 => mkWord 0xF 0 0 0xFFFFFFFF
  | 0x5 => mkWord 0xF 0 0 0xFFFFFFFF
  | 0x6 => mkWord 0xF 0xFFFF 0xFFFF 0x1
  | 0x7 => mkWord 0xF 0xFFFF 0xFFFF 0x3
  | 0x8 => mkWord 0xF 0xFFFF 0xFFFF 0xFFFFFFFF
  | 0x9 => mkWord 0xF 0xFFFF 0xFFFF 0xFFFFFFFF
  | 0xA => mkWord 0xF 0 0 0xFFFFFFFF
  | 0xB => mkWord 0xF 0xFFFF 0 0
  | _ => mkWord 0xF 0 0 0

/-- A word given as the opcode table numbers its bits (bit 0 the least significant), every bit from
`nbits` up taken as 0, on the 68 wires of the command port (DESIGN CHOICE, notes/assumptions/9.md). -/
def tableWord (nbits w : Nat) : CmdWord := BitVec.ofNat 68 (w % 2 ^ nbits)

/-- The command the decoder reads from a word given as the opcode table numbers its bits. -/
def decodeTableWord (nbits w : Nat) : Option Instr :=
  match decode (tableWord nbits w) with
  | .ok i => some i
  | .error _ => none

end Sys2Proof
end

