-- ==== Sys2Proof/Config.lean ====
section
/-! DEFINITION. The implementation parameters of 00_scope.md R5, in one configuration record
(90_conflicts.md C5, 93_implementation_defined.md U16), and the range of the one open parameter
`BUF_BYTES`. No command changes any of them (10_state.md R23, 40_quantizer.md R79). -/

namespace Sys2Proof

/-- The hardwired constants of the block (00_scope.md R5). The 1-bit and the 2-bit thresholds are
separate fields on purpose: they "must remain separate constants, not shared". -/
structure Parameters where
  /-- luminance weight of R -/
  wr : Nat
  /-- luminance weight of G -/
  wg : Nat
  /-- luminance weight of B -/
  wb : Nat
  /-- luminance divisor -/
  wdiv : Nat
  /-- 2-bit path: alpha below this gives level 0 -/
  t2Alpha : Nat
  /-- 2-bit path: lum at or above this gives level 0 -/
  t2L0 : Nat
  /-- 2-bit path: lum at or above this gives level 1 -/
  t2L1 : Nat
  /-- 2-bit path: lum at or above this gives level 2 -/
  t2L2 : Nat
  /-- 1-bit path: alpha below this gives level 0 -/
  t1Alpha : Nat
  /-- 1-bit path: lum below this gives level 1 -/
  t1Lum : Nat
  deriving DecidableEq, Repr

/-- The values of 00_scope.md R5. UNVERIFIED against the source's own code (91_not_in_source.md N2;
notes/assumptions/11.md). -/
def Config.quantizer : Parameters where
  wr := 299
  wg := 587
  wb := 114
  wdiv := 1000
  t2Alpha := 64
  t2L0 := 254
  t2L1 := 168
  t2L2 := 90
  t1Alpha := 128
  t1Lum := 192

/-- The least capacity `BUF_BYTES` may have (00_scope.md R5). -/
def Config.minBufBytes : Nat := 1

/-- The greatest capacity `BUF_BYTES` may have (00_scope.md R5). -/
def Config.maxBufBytes : Nat := 2 ^ 30

/-- DESIGN CHOICE (notes/assumptions/1.md): the capacity of the machine `State.reset` describes, the
value the test vectors of the spec use (00_scope.md R5). -/
def Config.resetBufBytes : Nat := 65536

end Sys2Proof
end

