-- ==== Sys2Proof/Machine/State.lean ====
section
/-! DEFINITION. The state of the LQP as plain data, the responses it gives, what the host presents to
it, and the state after reset (10_state.md, 30_encoding.md section 2, 60_exceptions.md section 1). -/

namespace Sys2Proof.Machine

/-- The four errors a command can raise (60_exceptions.md R140). An error is no stop: the command is
refused, recorded in `ERR`, and the block goes on (R142). -/
inductive CmdError where
  /-- `E_OP`: reserved opcode, or RDREG of a number that names no register -/
  | eOp
  /-- `E_FMT`: a PUT or PIX of one format on a buffer of the other -/
  | eFmt
  /-- `E_RANGE`: (x, y) outside the image, or a byte index outside the buffer -/
  | eRange
  /-- `E_SIZE`: a START whose buffer does not fit `BUF_BYTES` -/
  | eSize
  deriving DecidableEq, Repr

/-- The `code` of a response: success, or the error raised. Codes 5 to 15 cannot be written down
(30_encoding.md R53, 93_implementation_defined.md U12). -/
inductive RspCode where
  | ok
  | err (e : CmdError)
  deriving DecidableEq, Repr

/-- A response word before it is laid out in bits (30_encoding.md R53). -/
structure Response where
  code : RspCode
  value : Data
  deriving DecidableEq, Repr

/-- What the host does at the block's inputs (10_state.md R20, 70_reset_and_hazards.md R169). -/
inductive HostEvent where
  /-- `cmd_valid` with the word `w` on `cmd`; the block accepts it in its next step -/
  | command (w : CmdWord)
  /-- `rst_n` low then high, between two commands (70_reset_and_hazards.md R161) -/
  | reset
  deriving DecidableEq, Repr

/-- `BUF` as a list of (index, byte) cells, indices strictly rising, no cell holding what an unlisted
index reads as (`Memory.wf` in Ops.lean). -/
abbrev Memory := List Host.Cell

/-- Why the machine stops. -/
inductive Fault where
  /-- Raised by `memRead` and `memWrite` (Ops.lean), for PUT1, PUT2, PIX1, PIX2 and RDBUF alone: the
  index names no byte of `BUF` (20_memory.md R30: valid when `0 <= i < LEN`; 10_state.md R18: the
  memory ends at `BUF_BYTES`). Safe: the model stops. It takes a state with `LEN > BUF_BYTES`, which
  10_state.md R19 rules out (notes/assumptions/7.md). -/
  | noSuchIndex (i : Nat)
  deriving DecidableEq, Repr

/-- Why the model gives no meaning. -/
inductive Refusal where
  /-- Raised by an arm of `exec` whose command has no meaning yet; there is none left. Safe. -/
  | notModelled (mnemonic : String)
  deriving DecidableEq, Repr

/-- The state between two commands (00_scope.md R4): the registers of 10_state.md R12 to R17, the
memory of R18, and at the boundary of R20 what the host presents and what the block has answered. -/
structure State where
  /-- `FMT` (R12) -/
  fmt : Format
  /-- `W` (R13) -/
  w : Coord
  /-- `H` (R14) -/
  h : Coord
  /-- `ERR` (R17): bit 0 `E_OP`, bit 1 `E_FMT`, bit 2 `E_RANGE`, bit 3 `E_SIZE` -/
  err : BitVec 4
  /-- `BUF[0 .. LEN-1]` (R18) -/
  buf : Memory
  /-- The parameter `BUF_BYTES` (00_scope.md R5), a model argument carried with the state: no step
  changes it. DESIGN CHOICE (notes/assumptions/1.md). -/
  bufBytes : Nat
  /-- What the host will do, oldest first. DESIGN CHOICE (notes/assumptions/2.md). -/
  pending : List HostEvent
  /-- The responses given, oldest first (70_reset_and_hazards.md R164). DESIGN CHOICE
  (notes/assumptions/3.md). -/
  responses : List Response
  deriving DecidableEq, Repr

/-- The three outcomes of a step of this machine. -/
abbrev Result := Host.Outcome State Fault Refusal

/-- The machine right after reset (10_state.md R22): an empty 1-bit buffer, no error recorded. The
host has presented nothing and nothing was answered; no byte of `BUF` has a value, since `LEN = 0`. -/
def State.reset : State where
  fmt := .oneBit
  w := 0
  h := 0
  err := 0
  buf := []
  bufBytes := Config.resetBufBytes
  pending := []
  responses := []

end Sys2Proof.Machine
end

