-- ==== Sys2Proof/Machine/Flags.lean ====
section
/-! DEFINITION. The codes and the sticky bits of the errors, the response word in bits, and the error
output (30_encoding.md R53, 60_exceptions.md R140, R142, R146). -/

namespace Sys2Proof.Machine

/-- The `code` of an error (60_exceptions.md R140). -/
def CmdError.code : CmdError → BitVec 4
  | .eOp => 1
  | .eFmt => 2
  | .eRange => 3
  | .eSize => 4

/-- The bit of `ERR` an error sets, as R142 writes it: `1 << (code-1)` (60_exceptions.md). -/
def CmdError.bit (e : CmdError) : BitVec 4 := 1#4 <<< (e.code.toNat - 1)

/-- The `code` field of a response: 0 for success (30_encoding.md R53). -/
def RspCode.bits : RspCode → BitVec 4
  | .ok => 0
  | .err e => e.code

/-- The 36 bits of a response: `{code, value}` (30_encoding.md R53). -/
def Response.word (r : Response) : RspWord := r.code.bits ++ r.value

/-- The output `err_o`: 1 exactly when `ERR != 0` (60_exceptions.md R146). -/
def State.errO (s : State) : Bool := s.err != 0

/-- The bit value of the format tag (10_state.md R12). -/
def formatBit : Format → BitVec 1
  | .oneBit => 0
  | .twoBit => 1

end Sys2Proof.Machine
end

