-- ==== Sys2Proof/Machine/Operands.lean ====
section
/-! DEFINITION. Where a pixel lies: the address functions of the two packers, exactly as the spec
writes them (41_packer_1bit.md R90 to R92, 42_packer_2bit.md R110 to R112), the replacement of a pixel's
bits inside its byte (R95, R115), and the derived registers `PITCH` and `LEN` (10_state.md R15, R16).
Arithmetic is on unbounded naturals (00_scope.md section 5). -/

namespace Sys2Proof.Machine

/-- Row stride of the 1-bit format in bytes: `floor((W + 7)/8)` (R90). -/
def stride (w : Nat) : Nat := (w + 7) / 8

/-- Length of a 1-bit buffer in bytes (R91). -/
def len1 (w h : Nat) : Nat := stride w * h

/-- Index of the byte of pixel (x, y) in the 1-bit format (R92). -/
def byte1 (x y w : Nat) : Nat := y * stride w + x / 8

/-- Bit of that byte: the leftmost pixel is the most significant (R92). -/
def bit1 (x : Nat) : Nat := 7 - x % 8

/-- Bytes per column of the 2-bit format, in the source's form; 0 for `H = 0` (R110). -/
def bpc (h : Nat) : Nat := if h = 0 then 0 else (h - 1) / 8 * 2 + (h - 1) % 8 / 4 + 1

/-- Length of a 2-bit buffer in bytes (R111). -/
def len2 (w h : Nat) : Nat := w * bpc h

/-- Which byte of a column holds row y, in the source's form (R112). -/
def colbyte (y : Nat) : Nat := y / 8 * 2 + y % 8 / 4

/-- `nibble_shift`: which slot of that byte, times two (R112). -/
def nshift (y : Nat) : Nat := y % 4 * 2

/-- Index of the byte of pixel (x, y) in the 2-bit format (R112). -/
def byte2 (x y h : Nat) : Nat := x * bpc h + colbyte y

/-- Bit offset of the slot of row y: slot 0 is the most significant (R112). -/
def shift2 (y : Nat) : Nat := 6 - nshift y

/-- Replace bit `k` of a byte: clear it, then set it to `v` (R95). -/
def putBit (t : Byte) (k : Nat) (v : BinaryLevel) : Byte :=
  (t &&& ~~~(1#8 <<< k)) ||| (v.zeroExtend 8 <<< k)

/-- Replace the slot at bit offset `k` of a byte: clear it, then OR in the level (R115). -/
def putSlot (t : Byte) (k : Nat) (g : GrayLevel) : Byte :=
  (t &&& ~~~(3#8 <<< k)) ||| (g.zeroExtend 8 <<< k)

/-- The BinaryLevel a byte holds in bit `k` (R94). -/
def getBit (t : Byte) (k : Nat) : BinaryLevel := t.extractLsb' k 1

/-- The GrayLevel a byte holds in the slot at bit offset `k` (R114). -/
def getSlot (t : Byte) (k : Nat) : GrayLevel := t.extractLsb' k 2

/-- Length in bytes of a buffer of a format (10_state.md R16). -/
def lenOf (f : Format) (w h : Coord) : Nat :=
  match f with
  | .oneBit => len1 w.toNat h.toNat
  | .twoBit => len2 w.toNat h.toNat

/-- `LEN` (10_state.md R16). -/
def State.len (s : State) : Nat := lenOf s.fmt s.w s.h

/-- `PITCH` (10_state.md R15). -/
def State.pitch (s : State) : Nat :=
  match s.fmt with
  | .oneBit => stride s.w.toNat
  | .twoBit => bpc s.h.toNat

end Sys2Proof.Machine
end

