-- ==== Sys2Proof/Machine/Ops.lean ====
section
/-! DEFINITION. The named operations over the memory and the registers, each in one place: the cells of
`BUF`, `MemRead`, `MemWrite`, `respond`, `raise` (00_scope.md section 6; 60_exceptions.md R142), beginning
a buffer, writing a level into it, and reset. -/

namespace Sys2Proof.Machine

/-- What an unlisted index below `LEN` reads as. A START has written 0x00 there and nothing has
changed it since (R93, R113). DEDUCED, notes/assumptions/6.md. -/
def Memory.unlisted : Byte := 0

/-- The canonical form: indices strictly rising, no cell holding what an unlisted index reads as. -/
abbrev Memory.wf (m : Memory) : Prop :=
  m.Pairwise (fun c c' => c.1 < c'.1) ∧ ∀ c ∈ m, c.2 ≠ Memory.unlisted

/-- The byte at index `i`. -/
def Memory.get : Memory → Nat → Byte
  | [], _ => Memory.unlisted
  | (a, b) :: m, i => if a = i then b else Memory.get m i

/-- Put a cell before a list whose indices are above it, unless it holds what an unlisted index reads
as. -/
def Memory.cell (i : Nat) (v : Byte) (m : Memory) : Memory :=
  if v = Memory.unlisted then m else (i, v) :: m

/-- Write the byte `v` at index `i`, keeping the canonical form. -/
def Memory.set : Memory → Nat → Byte → Memory
  | [], i, v => Memory.cell i v []
  | (a, b) :: m, i, v =>
    if i < a then Memory.cell i v ((a, b) :: m)
    else if i = a then Memory.cell i v m
    else (a, b) :: Memory.set m i v

/-- A buffer in which every byte is 0x00, in canonical form (R93, R113: the zero fill of START). -/
def Memory.zeroed : Memory := []

/-- The byte of `BUF` at index `i`, where there is one: an index is valid when `i < LEN` (20_memory.md
R30), and the memory ends at `BUF_BYTES` (10_state.md R18). A byte at an index `>= LEN` has no value
(R18, R162; DESIGN CHOICE, notes/assumptions/5.md). -/
def State.byteAt (s : State) (i : Nat) : Option Byte :=
  if i < s.len ∧ i < s.bufBytes then some (s.buf.get i) else none

/-- `MemRead(i, 1)` (00_scope.md section 6): no side effect (20_memory.md R35). -/
def memRead (s : State) (i : Nat) : Except Fault Byte :=
  match s.byteAt i with
  | some b => .ok b
  | none => .error (.noSuchIndex i)

/-- The state with `BUF[i] = b`. -/
def State.setByte (s : State) (i : Nat) (b : Byte) : State := { s with buf := s.buf.set i b }

/-- `MemWrite(i, 1, b)` (00_scope.md section 6). -/
def memWrite (s : State) (i : Nat) (b : Byte) : Except Fault State :=
  match s.byteAt i with
  | some _ => .ok (s.setByte i b)
  | none => .error (.noSuchIndex i)

/-- Give one response (30_encoding.md R53). -/
def State.answer (s : State) (r : Response) : State := { s with responses := s.responses ++ [r] }

/-- `respond(v)` (00_scope.md section 6): code 0 and the value. -/
def respond (v : Data) (s : State) : State := s.answer ⟨.ok, v⟩

/-- `raise E` (60_exceptions.md R142): set the bit of `E` in `ERR`, bits already set staying set; answer
the code of `E` with value 0; change nothing else. -/
def raise (e : CmdError) (s : State) : State :=
  { s with err := s.err ||| e.bit }.answer ⟨.err e, 0⟩

/-- The state in which a new buffer of format `f` is begun, every byte of it 0x00 (R93, R113). The
buffer in progress is discarded. -/
def State.beginBuffer (s : State) (f : Format) (w h : Coord) : State :=
  { s with fmt := f, w := w, h := h, buf := Memory.zeroed }

/-- START (R93, R113): refuse a buffer longer than `BUF_BYTES`, else begin it and answer its length
`n`. -/
def startBuffer (f : Format) (w h : Coord) (n : Nat) (s : State) : Result :=
  if s.bufBytes < n then .next (raise .eSize s)
  else .next (respond (BitVec.ofNat 32 n) (s.beginBuffer f w h))

/-- (x, y) is a pixel of the image: `x < W` and `y < H` (60_exceptions.md R140, `E_RANGE`). -/
abbrev State.inImage (s : State) (x y : Coord) : Prop :=
  x.toNat < s.w.toNat ∧ y.toNat < s.h.toNat

/-- Read the byte at index `i`, write it back as `change` makes it, answer `v`: the read-modify-write
of PUT and PIX (20_memory.md R35, R36). -/
def modifyByte (i : Nat) (change : Byte → Byte) (v : Data) (s : State) : Result :=
  match memRead s i with
  | .error f => .fault f
  | .ok t =>
    match memWrite s i (change t) with
    | .error f => .fault f
    | .ok s' => .next (respond v s')

/-- PUT and PIX of the format `f` at (x, y): `E_FMT` is tested first, then `E_RANGE` (60_exceptions.md
R143), then `write` is done. -/
def guarded (f : Format) (x y : Coord) (write : State → Result) (s : State) : Result :=
  if s.fmt ≠ f then .next (raise .eFmt s)
  else if ¬ s.inImage x y then .next (raise .eRange s)
  else write s

/-- Replace the bit of (x, y) in a 1-bit buffer by `v`, and answer `rsp` (R95, R98). -/
def writeLevel1 (x y : Coord) (v : BinaryLevel) (rsp : Data) (s : State) : Result :=
  modifyByte (byte1 x.toNat y.toNat s.w.toNat) (fun t => putBit t (bit1 x.toNat) v) rsp s

/-- Replace the slot of (x, y) in a 2-bit buffer by `g`, and answer `rsp` (R115, R120). -/
def writeLevel2 (x y : Coord) (g : GrayLevel) (rsp : Data) (s : State) : Result :=
  modifyByte (byte2 x.toNat y.toNat s.h.toNat) (fun t => putSlot t (shift2 y.toNat) g) rsp s

/-- A word that is none of the twelve commands raises `E_OP` (30_encoding.md R56). -/
def rejectWord (e : DecodeError) (s : State) : Result :=
  match e with
  | .reservedOpcode _ => .next (raise .eOp s)

/-- Reset (70_reset_and_hazards.md R160, 10_state.md R22): `FMT`, `W`, `H`, `ERR` are 0, and no byte of
`BUF` has a value (DESIGN CHOICE, notes/assumptions/5.md). No response is given. What the host does and
what was answered before stay. DESIGN CHOICE: an event between two commands (notes/assumptions/4.md). -/
def State.resetBlock (s : State) : State :=
  { s with fmt := .oneBit, w := 0, h := 0, err := 0, buf := [] }

end Sys2Proof.Machine
end

