-- ==== Sys2Proof/Machine/Control.lean ====
section
/-! DEFINITION. Control and read-out (43_control_readout.md): NOP, RDBUF, RDREG. None of them changes
`FMT`, `W`, `H` or `BUF`. -/

namespace Sys2Proof.Machine

/-- NOP (R130). -/
def execNop (s : State) : Result := .next (respond 0 s)

/-- RDBUF (R131): the index is in the whole field `d`. -/
def execRdbuf (i : Data) (s : State) : Result :=
  if s.len ≤ i.toNat then .next (raise .eRange s)
  else
    match memRead s i.toNat with
    | .error f => .fault f
    | .ok t => .next (respond (t.zeroExtend 32) s)

/-- The value of the register of number `n`, zero-extended to 32 bits; `none` where no register has
that number (10_state.md R21). -/
def State.register (s : State) (n : Nat) : Option Data :=
  match n with
  | 0 => some ((formatBit s.fmt).zeroExtend 32)
  | 1 => some (s.w.zeroExtend 32)
  | 2 => some (s.h.zeroExtend 32)
  | 3 => some (BitVec.ofNat 32 s.pitch)
  | 4 => some (BitVec.ofNat 32 s.len)
  | 5 => some (s.err.zeroExtend 32)
  | 6 => some (BitVec.ofNat 32 s.bufBytes)
  | _ => none

/-- RDREG (R132): all 16 bits of the number are compared. -/
def execRdreg (n : Coord) (s : State) : Result :=
  match s.register n.toNat with
  | some v => .next (respond v s)
  | none => .next (raise .eOp s)

end Sys2Proof.Machine
end

