-- ==== Sys2Proof/Machine/Quantizer.lean ====
section
/-! DEFINITION. The Luminance Quantizer (40_quantizer.md): the three pure functions of a pixel, each over
the configuration record it is given, and the commands LUM, QUANT1, QUANT2, which read and write no
state but the response they give. -/

namespace Sys2Proof.Machine

/-- `lum(R,G,B)`: exact integer division, truncating; alpha takes no part (R70, R76). -/
def lum (c : Parameters) (p : Pixel) : Nat :=
  (p.r.toNat * c.wr + p.g.toNat * c.wg + p.b.toNat * c.wb) / c.wdiv

/-- `quant1(R,G,B,A)`: the 1-bit mapping (R72). -/
def quant1 (c : Parameters) (p : Pixel) : BinaryLevel :=
  if p.a.toNat < c.t1Alpha then 0
  else if lum c p < c.t1Lum then 1
  else 0

/-- `quant2(R,G,B,A)`: the 2-bit mapping, the conditions tested in this order (R71). -/
def quant2 (c : Parameters) (p : Pixel) : GrayLevel :=
  if p.a.toNat < c.t2Alpha then 0
  else if c.t2L0 ≤ lum c p then 0
  else if c.t2L1 ≤ lum c p then 1
  else if c.t2L2 ≤ lum c p then 2
  else 3

/-- LUM (R73). -/
def execLum (p : Pixel) (s : State) : Result :=
  .next (respond (BitVec.ofNat 32 (lum Config.quantizer p)) s)

/-- QUANT1 (R74). -/
def execQuant1 (p : Pixel) (s : State) : Result :=
  .next (respond ((quant1 Config.quantizer p).zeroExtend 32) s)

/-- QUANT2 (R75). -/
def execQuant2 (p : Pixel) (s : State) : Result :=
  .next (respond ((quant2 Config.quantizer p).zeroExtend 32) s)

end Sys2Proof.Machine
end

