-- ==== Sys2Proof/Machine/Packer1.lean ====
section
/-! DEFINITION. The 1-bit Row-Major Packer (41_packer_1bit.md): START1, PUT1, PIX1. -/

namespace Sys2Proof.Machine

/-- START1 (R93). -/
def execStart1 (w h : Coord) (s : State) : Result :=
  startBuffer .oneBit w h (len1 w.toNat h.toNat) s

/-- PUT1 (R95). -/
def execPut1 (x y : Coord) (v : BinaryLevel) (s : State) : Result :=
  guarded .oneBit x y (writeLevel1 x y v 0) s

/-- PIX1: QUANT1 followed by PUT1 of the result, as one command; it answers the level (R98). -/
def execPix1 (x y : Coord) (p : Pixel) (s : State) : Result :=
  let v := quant1 Config.quantizer p
  guarded .oneBit x y (writeLevel1 x y v (v.zeroExtend 32)) s

end Sys2Proof.Machine
end

