-- ==== Sys2Proof/Machine/Packer2.lean ====
section
/-! DEFINITION. The 2-bit Column-Major Packer (42_packer_2bit.md): START2, PUT2, PIX2. -/

namespace Sys2Proof.Machine

/-- START2 (R113). -/
def execStart2 (w h : Coord) (s : State) : Result :=
  startBuffer .twoBit w h (len2 w.toNat h.toNat) s

/-- PUT2 (R115). -/
def execPut2 (x y : Coord) (g : GrayLevel) (s : State) : Result :=
  guarded .twoBit x y (writeLevel2 x y g 0) s

/-- PIX2: QUANT2 followed by PUT2 of the result, as one command; it answers the level (R120). -/
def execPix2 (x y : Coord) (p : Pixel) (s : State) : Result :=
  let g := quant2 Config.quantizer p
  guarded .twoBit x y (writeLevel2 x y g (g.zeroExtend 32)) s

end Sys2Proof.Machine
end

