-- ==== Sys2Proof/Machine/Dispatch.lean ====
section
/-! DEFINITION. One arm per command, each one call of its meaning (30_encoding.md R55). -/

namespace Sys2Proof.Machine

/-- The effect of one decoded command. -/
def exec (i : Instr) (s : State) : Host.Outcome State Fault Refusal :=
  match i with
  | .nop => Sys2Proof.Machine.execNop s
  | .start1 w h => Sys2Proof.Machine.execStart1 w h s
  | .start2 w h => Sys2Proof.Machine.execStart2 w h s
  | .lum p => Sys2Proof.Machine.execLum p s
  | .quant1 p => Sys2Proof.Machine.execQuant1 p s
  | .quant2 p => Sys2Proof.Machine.execQuant2 p s
  | .put1 x y v => Sys2Proof.Machine.execPut1 x y v s
  | .put2 x y g => Sys2Proof.Machine.execPut2 x y g s
  | .pix1 x y p => Sys2Proof.Machine.execPix1 x y p s
  | .pix2 x y p => Sys2Proof.Machine.execPix2 x y p s
  | .rdbuf d => Sys2Proof.Machine.execRdbuf d s
  | .rdreg n => Sys2Proof.Machine.execRdreg n s

end Sys2Proof.Machine
end

