-- ==== Sys2Proof/Machine/Step.lean ====
section
/-! DEFINITION. One step: the block deals with the next thing the host does (00_scope.md R4, 20_memory.md
R38, 70_reset_and_hazards.md R161, R169). -/

namespace Sys2Proof.Machine

/-- One step. A command is accepted, decoded and executed to completion, with one response; a word
that is no command raises `E_OP`; a reset resets the block; with nothing presented the block waits.
DESIGN CHOICE: what stands at the port, and the idle step (notes/assumptions/2.md); no cycles
(notes/assumptions/8.md). -/
def step (s : State) : Host.Outcome State Fault Refusal :=
  match s.pending with
  | [] => .next s
  | .reset :: rest => .next ({ s with pending := rest }.resetBlock)
  | .command w :: rest =>
    match decode w with
    | .ok i => exec i { s with pending := rest }
    | .error e => rejectWord e { s with pending := rest }

/-- The state in which the host presents the command word `w` next, numbered as the opcode table
numbers its bits (notes/assumptions/2.md, notes/assumptions/9.md). -/
def State.withFetchWord (s : State) (nbits w : Nat) : State :=
  { s with pending := .command (tableWord nbits w) :: s.pending }

end Sys2Proof.Machine
end

