-- ==== Sys2Proof/Machine/Assembler.lean ====
section
/-! DEFINITION. The assembler syntax of 30_encoding.md R60 to R62: what command a line of text stands for.
It says which words a written command sequence is; the block itself never sees text. What the rules do
not say of blanks, digits and names is a DESIGN CHOICE (notes/assumptions/13.md). -/

namespace Sys2Proof.Machine

/-- A piece of a line: a run of characters, or one of the three separators. -/
inductive Token where
  | word (text : List Char)
  | comma
  | openParen
  | closeParen
  deriving DecidableEq, Repr

/-- An operand as written (R60): a number, a name, or `rgba(R,G,B,A)`. -/
inductive Operand where
  | number (n : Nat)
  | name (text : String)
  | rgba (r g b a : Nat)
  deriving DecidableEq, Repr

/-- What a line is. -/
inductive Line where
  /-- nothing but spaces and a comment -/
  | blank
  /-- one command (R60: one command per line) -/
  | command (i : Instr)
  /-- not of the syntax -/
  | malformed
  deriving DecidableEq, Repr

/-- End the run of characters read so far (kept in reverse). -/
def endWord (run : List Char) (rest : List Token) : List Token :=
  match run with
  | [] => rest
  | _ :: _ => .word run.reverse :: rest

/-- The tokens of a line, `run` being the word under way, in reverse; `;` starts a comment (R60). -/
def tokensFrom (run : List Char) : List Char → List Token
  | [] => endWord run []
  | c :: cs =>
    if c = ';' then endWord run []
    else if c = ' ' ∨ c = '\t' then endWord run (tokensFrom [] cs)
    else if c = ',' then endWord run (.comma :: tokensFrom [] cs)
    else if c = '(' then endWord run (.openParen :: tokensFrom [] cs)
    else if c = ')' then endWord run (.closeParen :: tokensFrom [] cs)
    else tokensFrom (c :: run) cs

/-- The digits in the order of their values: R60 has decimal numbers and hexadecimal ones, whose letters
are read in either case (DESIGN CHOICE, notes/assumptions/13.md). -/
def digitRows : List (List Char) := ["0123456789ABCDEF".toList, "0123456789abcdef".toList]

/-- The value of a digit of a base: its place among the first `base` digits of a row. -/
def digitValue (base : Nat) (c : Char) : Option Nat :=
  digitRows.findSome? fun row => (row.take base).idxOf? c

/-- The number that a run of digits writes, most significant first, `n` being the value of those before
it. -/
def digitsFrom (base n : Nat) : List Char → Option Nat
  | [] => some n
  | c :: cs => (digitValue base c).bind fun v => digitsFrom base (base * n + v) cs

/-- A number: decimal, or hexadecimal after `0x` (R60). -/
def numberOf : List Char → Option Nat
  | [] => none
  | '0' :: 'x' :: [] => none
  | '0' :: 'x' :: cs => digitsFrom 16 0 cs
  | cs => digitsFrom 10 0 cs

/-- An operand that is one word. -/
def wordOperand (text : List Char) : Operand :=
  match numberOf text with
  | some n => .number n
  | none => .name (String.ofList text)

/-- The four numbers of `rgba(R,G,B,A)`. -/
def rgbaOperand (f r g b a : List Char) : Option Operand :=
  if f = ['r', 'g', 'b', 'a'] then
    match numberOf r, numberOf g, numberOf b, numberOf a with
    | some r, some g, some b, some a => some (.rgba r g b a)
    | _, _, _, _ => none
  else none

/-- The operands of a line, separated by commas (R60). -/
def operandsOf : List Token → Option (List Operand)
  | [.word t] => some [wordOperand t]
  | .word t :: .comma :: rest => (operandsOf rest).map (wordOperand t :: ·)
  | [.word f, .openParen, .word r, .comma, .word g, .comma, .word b, .comma, .word a, .closeParen] =>
    (rgbaOperand f r g b a).map ([·])
  | .word f :: .openParen :: .word r :: .comma :: .word g :: .comma :: .word b :: .comma :: .word a ::
      .closeParen :: .comma :: rest =>
    match rgbaOperand f r g b a, operandsOf rest with
    | some o, some os => some (o :: os)
    | _, _ => none
  | _ => none

/-- A number as a field of `n` bits, where it fits. -/
def fieldOf (n : Nat) : Operand → Option (BitVec n)
  | .number v => if v < 2 ^ n then some (BitVec.ofNat n v) else none
  | .name _ => none
  | .rgba _ _ _ _ => none

/-- The colour `white`, fully opaque (R61). -/
def whitePixel : Pixel := ⟨255, 255, 255, 255⟩

/-- The colour `black`, fully opaque (R61). -/
def blackPixel : Pixel := ⟨0, 0, 0, 255⟩

/-- A pixel operand: the number `0xRRGGBBAA`, `rgba(R,G,B,A)`, or a colour name (R60, R61). -/
def pixelOperand : Operand → Option Pixel
  | .number v => if v < 2 ^ 32 then some (pixelOf (BitVec.ofNat 32 v)) else none
  | .rgba r g b a =>
    if r < 256 ∧ g < 256 ∧ b < 256 ∧ a < 256 then
      some ⟨BitVec.ofNat 8 r, BitVec.ofNat 8 g, BitVec.ofNat 8 b, BitVec.ofNat 8 a⟩
    else none
  | .name "white" => some whitePixel
  | .name "black" => some blackPixel
  | .name _ => none

/-- A register operand of RDREG: its number or its name (R60). -/
def registerOperand : Operand → Option Coord
  | .number v => if v < 2 ^ 16 then some (BitVec.ofNat 16 v) else none
  | .rgba _ _ _ _ => none
  | .name "FMT" => some 0
  | .name "W" => some 1
  | .name "H" => some 2
  | .name "PITCH" => some 3
  | .name "LEN" => some 4
  | .name "ERR" => some 5
  | .name "CAP" => some 6
  | .name _ => none

/-- The format operand of START (R61). -/
def formatOperand : Operand → Option Format
  | .number 0 => some .oneBit
  | .number 1 => some .twoBit
  | .number _ => none
  | .rgba _ _ _ _ => none
  | .name "OneBit" => some .oneBit
  | .name "TwoBit" => some .twoBit
  | .name _ => none

/-- The pseudo-command `START fmt, W, H` is one START command (R61). -/
def startOf (f : Format) (w h : Coord) : Instr :=
  match f with
  | .oneBit => .start1 w h
  | .twoBit => .start2 w h

/-- The command of a mnemonic and its operands, in the order `a`, `b`, `d` (R60, R61). -/
def commandOf (mnemonic : String) (os : List Operand) : Option Instr :=
  match mnemonic, os with
  | "NOP", [] => some .nop
  | "START1", [w, h] => do return .start1 (← fieldOf 16 w) (← fieldOf 16 h)
  | "START2", [w, h] => do return .start2 (← fieldOf 16 w) (← fieldOf 16 h)
  | "START", [f, w, h] => do return startOf (← formatOperand f) (← fieldOf 16 w) (← fieldOf 16 h)
  | "LUM", [p] => do return .lum (← pixelOperand p)
  | "QUANT1", [p] => do return .quant1 (← pixelOperand p)
  | "QUANT2", [p] => do return .quant2 (← pixelOperand p)
  | "PUT1", [x, y, v] => do return .put1 (← fieldOf 16 x) (← fieldOf 16 y) (← fieldOf 1 v)
  | "PUT2", [x, y, g] => do return .put2 (← fieldOf 16 x) (← fieldOf 16 y) (← fieldOf 2 g)
  | "PIX1", [x, y, p] => do return .pix1 (← fieldOf 16 x) (← fieldOf 16 y) (← pixelOperand p)
  | "PIX2", [x, y, p] => do return .pix2 (← fieldOf 16 x) (← fieldOf 16 y) (← pixelOperand p)
  | "RDBUF", [i] => do return .rdbuf (← fieldOf 32 i)
  | "RDREG", [n] => do return .rdreg (← registerOperand n)
  | _, _ => none

/-- The command a line after its mnemonic stands for. -/
def lineOf (mnemonic : List Char) (operands : Option (List Operand)) : Line :=
  match operands with
  | none => .malformed
  | some os =>
    match commandOf (String.ofList mnemonic) os with
    | some i => .command i
    | none => .malformed

/-- What a line of text stands for (R60, R61). -/
def assembleLine (text : String) : Line :=
  match tokensFrom [] text.toList with
  | [] => .blank
  | [.word m] => lineOf m (some [])
  | .word m :: rest => lineOf m (operandsOf rest)
  | _ :: _ => .malformed

/-- The word a line assembles to (R62), where it is a command. -/
def assembledWord (text : String) : Option CmdWord :=
  match assembleLine text with
  | .blank => none
  | .command i => some (encode i)
  | .malformed => none

end Sys2Proof.Machine
end

