-- ==== Sys2Proof/WellFormed.lean ====
section
/-! DEFINITION. Which commands are legal as written. Every operand has exactly the width of its field,
so the one check left is the one 30_encoding.md R57 names: "The one place where a field value makes a
defined command illegal is RDREG with `a >= 7`". An illegal command still decodes and still has its
effect, `E_OP` (43_control_readout.md R132); `wellFormed` only names the legal ones
(DESIGN CHOICE, notes/assumptions/12.md). -/

namespace Sys2Proof

/-- The number of registers RDREG can read (10_state.md R21). -/
def registerCount : Nat := 7

/-- The command is legal in the sense of 30_encoding.md R57. -/
def Instr.wellFormed : Instr → Bool
  | .nop => true
  | .start1 _ _ => true
  | .start2 _ _ => true
  | .lum _ => true
  | .quant1 _ => true
  | .quant2 _ => true
  | .put1 _ _ _ => true
  | .put2 _ _ _ => true
  | .pix1 _ _ _ => true
  | .pix2 _ _ _ => true
  | .rdbuf _ => true
  | .rdreg n => n.toNat < registerCount

end Sys2Proof
end

