-- ==== Sys2Proof/Safety.lean ====
section
/-! DEFINITION. The terms in which claims about the LQP are made: the invariant of its state, the level
a buffer holds for a pixel, which bits of a buffer are padding, what causes each error, the finished
artifact, and a run of commands. -/

namespace Sys2Proof.Machine

/-- The invariant of the state: the capacity lies in its range (00_scope.md R5), `LEN <= BUF_BYTES`
(10_state.md R19), and `BUF` is in canonical form and holds cells only at valid indices (20_memory.md
R30). -/
structure State.Inv (s : State) : Prop where
  capacity_min : Config.minBufBytes ≤ s.bufBytes
  capacity_max : s.bufBytes ≤ Config.maxBufBytes
  len_le : s.len ≤ s.bufBytes
  buf_wf : s.buf.wf
  buf_bound : ∀ c ∈ s.buf, c.1 < s.len

/-- The BinaryLevel a 1-bit buffer holds for the pixel (x, y) (41_packer_1bit.md R92, R94). -/
def State.pixel1 (s : State) (x y : Coord) : Option BinaryLevel :=
  (s.byteAt (byte1 x.toNat y.toNat s.w.toNat)).map (fun t => getBit t (bit1 x.toNat))

/-- The GrayLevel a 2-bit buffer holds for the pixel (x, y) (42_packer_2bit.md R112, R114). -/
def State.pixel2 (s : State) (x y : Coord) : Option GrayLevel :=
  (s.byteAt (byte2 x.toNat y.toNat s.h.toNat)).map (fun t => getSlot t (shift2 y.toNat))

/-- Bit `k` of byte `i` is one that the pixel (x, y) maps to (R92; R112: both bits of the slot). -/
def pixelHasBit (f : Format) (w h x y i k : Nat) : Prop :=
  match f with
  | .oneBit => byte1 x y w = i ∧ bit1 x = k
  | .twoBit => byte2 x y h = i ∧ (shift2 y = k ∨ shift2 y + 1 = k)

/-- Bit `k` of byte `i` is padding: no pixel of the image maps to it (00_scope.md section 7). -/
def isPadding (f : Format) (w h i k : Nat) : Prop :=
  ∀ x y, x < w → y < h → ¬ pixelHasBit f w h x y i k

/-- Every padding bit of the buffer is 0 (20_memory.md R42 (e), R94, R114). -/
def State.PaddingZero (s : State) : Prop :=
  ∀ i t k, s.byteAt i = some t → k < 8 → isPadding s.fmt s.w.toNat s.h.toNat i k →
    t.getLsbD k = false

/-- Every byte of the buffer is 0x00 (R93, R113). -/
def State.AllZero (s : State) : Prop := ∀ i, i < s.len → s.byteAt i = some 0

/-- The block has recorded no error (60_exceptions.md R144). -/
def State.NoError (s : State) : Prop := s.err = 0

/-- The condition under which a PUT or PIX of the format `f` at (x, y) raises the error `e`
(60_exceptions.md R140, R143). -/
def pixelCause (f : Format) (x y : Coord) (s : State) : CmdError → Prop
  | .eOp => False
  | .eFmt => s.fmt ≠ f
  | .eRange => s.fmt = f ∧ ¬ s.inImage x y
  | .eSize => False

/-- The condition under which a command raises the error `e`: the table of 60_exceptions.md R140 with
the priority of R143. -/
def errorCause (e : CmdError) (s : State) : Instr → Prop
  | .nop => False
  | .start1 w h => e = .eSize ∧ s.bufBytes < len1 w.toNat h.toNat
  | .start2 w h => e = .eSize ∧ s.bufBytes < len2 w.toNat h.toNat
  | .lum _ => False
  | .quant1 _ => False
  | .quant2 _ => False
  | .put1 x y _ => pixelCause .oneBit x y s e
  | .put2 x y _ => pixelCause .twoBit x y s e
  | .pix1 x y _ => pixelCause .oneBit x y s e
  | .pix2 x y _ => pixelCause .twoBit x y s e
  | .rdbuf i => e = .eRange ∧ s.len ≤ i.toNat
  | .rdreg n => e = .eOp ∧ 7 ≤ n.toNat

/-- The condition under which a command word raises the error `e`: a reserved opcode raises `E_OP`
(30_encoding.md R56), and a command what `errorCause` says (60_exceptions.md R140). -/
def wordErrorCause (e : CmdError) (s : State) (w : CmdWord) : Prop :=
  match decode w with
  | .ok i => errorCause e s i
  | .error _ => e = .eOp

/-- The commands that may write `BUF` (10_state.md R18). -/
def mayWriteBuf : Instr → Bool
  | .nop => false
  | .start1 _ _ => true
  | .start2 _ _ => true
  | .lum _ => false
  | .quant1 _ => false
  | .quant2 _ => false
  | .put1 _ _ _ => true
  | .put2 _ _ _ => true
  | .pix1 _ _ _ => true
  | .pix2 _ _ _ => true
  | .rdbuf _ => false
  | .rdreg _ => false

/-- The state `t` is `s` after the bit of (x, y) in a 1-bit buffer was replaced by `v` and `rsp` was
answered: the one byte of the pixel keeps its other seven bits, every other byte is as before, and
nothing else changed (41_packer_1bit.md R92, R95). -/
def WritesBit (s t : State) (x y : Coord) (v : BinaryLevel) (rsp : Data) : Prop :=
  ∃ b b' : Byte,
    s.byteAt (byte1 x.toNat y.toNat s.w.toNat) = some b ∧
    (∀ k, k < 8 →
      b'.getLsbD k = if k = 7 - x.toNat % 8 then v.getLsbD 0 else b.getLsbD k) ∧
    (∀ j, t.byteAt j =
      if j = byte1 x.toNat y.toNat s.w.toNat then some b' else s.byteAt j) ∧
    t = { s with buf := t.buf, responses := s.responses ++ [⟨.ok, rsp⟩] }

/-- The state `t` is `s` after the slot of (x, y) in a 2-bit buffer was replaced by `g` and `rsp` was
answered: the one byte of the pixel keeps its other six bits, every other byte is as before, and
nothing else changed (42_packer_2bit.md R112, R115). -/
def WritesSlot (s t : State) (x y : Coord) (g : GrayLevel) (rsp : Data) : Prop :=
  ∃ b b' : Byte,
    s.byteAt (byte2 x.toNat y.toNat s.h.toNat) = some b ∧
    (∀ k, k < 8 →
      b'.getLsbD k =
        if k = 6 - y.toNat % 4 * 2 then g.getLsbD 0
        else if k = 7 - y.toNat % 4 * 2 then g.getLsbD 1
        else b.getLsbD k) ∧
    (∀ j, t.byteAt j =
      if j = byte2 x.toNat y.toNat s.h.toNat then some b' else s.byteAt j) ∧
    t = { s with buf := t.buf, responses := s.responses ++ [⟨.ok, rsp⟩] }

/-- The state after a command that raised the error `e`, of `ERR` bit `bit`: nothing but
that bit and the response (60_exceptions.md R142). -/
def State.refusedWith (s : State) (e : CmdError) (bit : BitVec 4) : State :=
  { s with err := s.err ||| bit, responses := s.responses ++ [⟨.err e, 0⟩] }

/-- A list of commands executed one after the other, each to completion (20_memory.md R38,
70_reset_and_hazards.md R164). -/
def execAll : List Instr → State → Result
  | [], s => .next s
  | i :: is, s =>
    match exec i s with
    | .next t => execAll is t
    | .fault r => .fault r
    | .refused r => .refused r

/-- The level of the last write to (x, y) among writes given in order (20_memory.md R43). -/
def lastLevel {n : Nat} (writes : List (Coord × Coord × BitVec n)) (x y : Coord) :
    Option (BitVec n) :=
  (writes.reverse.find? (fun q => q.1 = x ∧ q.2.1 = y)).map (fun q => q.2.2)

/-- The complete artifact: "a byte sequence plus the (W,H) it encodes", with its format (00_scope.md
section 7, 43_control_readout.md R133). -/
structure PackedBuffer where
  fmt : Format
  w : Coord
  h : Coord
  bytes : List Byte
  deriving DecidableEq, Repr

/-- The artifact the block holds (10_state.md R18). -/
def State.packedBuffer (s : State) : PackedBuffer where
  fmt := s.fmt
  w := s.w
  h := s.h
  bytes := (List.range s.len).map s.buf.get

/-- The commands that read an artifact of `n` bytes out of the block (43_control_readout.md R133). -/
def readoutCommands (n : Nat) : List Instr :=
  [.rdreg 0, .rdreg 1, .rdreg 2, .rdreg 4] ++
    (List.range n).map (fun i => .rdbuf (BitVec.ofNat 32 i))

/-- The responses from which the host reads an artifact (43_control_readout.md R133). -/
def PackedBuffer.answers (b : PackedBuffer) : List Response :=
  [⟨.ok, (formatBit b.fmt).zeroExtend 32⟩, ⟨.ok, b.w.zeroExtend 32⟩, ⟨.ok, b.h.zeroExtend 32⟩,
    ⟨.ok, BitVec.ofNat 32 b.bytes.length⟩] ++
    b.bytes.map (fun t => ⟨.ok, t.zeroExtend 32⟩)

end Sys2Proof.Machine
end

