-- ==== Sys2Proof/Certificates/Slice0/Obligations.lean ====
section
/-! DEFINITION. The statements for the provers, each citing the rule of spec/ it formalises. -/

open Sys2Proof Sys2Proof.Machine

/-! ### Encoding (30_encoding.md) -/

/-- R50, R55, R60, R62: no bit of an operand is lost between a command and its word. -/
def Obligations.DecodeOfEncodeIsSame : Prop :=
  ∀ i : Instr, decode (encode i) = .ok i

/-- R62: the word of a command as a number, with the rule's own example. -/
def Obligations.WordIsSumOfShiftedFields : Prop :=
  (∀ i : Instr, (encode i).toNat =
    i.opcode.toNat * 2 ^ 64 + i.aOperand.toNat * 2 ^ 48 + i.bOperand.toNat * 2 ^ 32
      + i.dOperand.toNat) ∧
  encode (.pix2 2 5 ⟨100, 100, 100, 255⟩) = 0x900020005646464FF

/-- R50, R52, R55, R58: which bits of a word are the operands of each command, bit positions as the
opcode table gives them. -/
def Obligations.CommandWordFieldPositions : Prop :=
  ∀ w : CmdWord,
    let op := w.extractLsb' 64 4
    let a : Coord := w.extractLsb' 48 16
    let b : Coord := w.extractLsb' 32 16
    let p : Pixel :=
      ⟨w.extractLsb' 24 8, w.extractLsb' 16 8, w.extractLsb' 8 8, w.extractLsb' 0 8⟩
    (op = 0x0 → decode w = .ok .nop) ∧
    (op = 0x1 → decode w = .ok (.start1 a b)) ∧
    (op = 0x2 → decode w = .ok (.start2 a b)) ∧
    (op = 0x3 → decode w = .ok (.lum p)) ∧
    (op = 0x4 → decode w = .ok (.quant1 p)) ∧
    (op = 0x5 → decode w = .ok (.quant2 p)) ∧
    (op = 0x6 → decode w = .ok (.put1 a b (w.extractLsb' 0 1))) ∧
    (op = 0x7 → decode w = .ok (.put2 a b (w.extractLsb' 0 2))) ∧
    (op = 0x8 → decode w = .ok (.pix1 a b p)) ∧
    (op = 0x9 → decode w = .ok (.pix2 a b p)) ∧
    (op = 0xA → decode w = .ok (.rdbuf (w.extractLsb' 0 32))) ∧
    (op = 0xB → decode w = .ok (.rdreg a))

/-- R56: every word is one of the twelve commands or raises `E_OP` and does nothing else. -/
def Obligations.ReservedOpcodeRaisesEOp : Prop :=
  ∀ (s : State) (w : CmdWord) (rest : List HostEvent), s.pending = .command w :: rest →
    (w.extractLsb' 64 4 < (0xC : BitVec 4) → ∃ i, decode w = .ok i) ∧
    ((0xC : BitVec 4) ≤ w.extractLsb' 64 4 →
      decode w = .error (.reservedOpcode (w.extractLsb' 64 4)) ∧
      step s = .next { s with
        pending := rest
        err := s.err ||| 0b0001
        responses := s.responses ++ [⟨.err .eOp, 0⟩] })

/-- R57: a bit that the command of a word does not read changes nothing, and RDREG with `a >= 7` is
the one defined command that a field value makes illegal. -/
def Obligations.UnreadBitsAreIgnored : Prop :=
  (∀ (s : State) (w w' : CmdWord) (rest : List HostEvent),
    w &&& readMask (opField w) = w' &&& readMask (opField w) →
    step { s with pending := .command w :: rest } =
      step { s with pending := .command w' :: rest }) ∧
  (∀ i : Instr, i.wellFormed = false ↔ ∃ n : Coord, i = .rdreg n ∧ 7 ≤ n.toNat) ∧
  ∀ (i : Instr) (s : State), i.wellFormed = false → exec i s = .next (s.refusedWith .eOp 0b0001)

/-- R55, R62 and 95_test_vectors.md: a few words and the commands they stand for. -/
def Obligations.SampleWordsDecode : Prop :=
  decode 0x00000000000000000 = .ok .nop ∧
  decode 0x1000A000300000000 = .ok (.start1 10 3) ∧
  decode 0x20003000900000000 = .ok (.start2 3 9) ∧
  decode 0x300000000C86432FF = .ok (.lum ⟨200, 100, 50, 255⟩) ∧
  decode 0x600000000FFFFFFFE = .ok (.put1 0 0 0) ∧
  decode 0x700000000FFFFFFFE = .ok (.put2 0 0 2) ∧
  decode 0x80005000100000080 = .ok (.pix1 5 1 ⟨0, 0, 0, 128⟩) ∧
  decode 0xAFFFFFFFF00000000 = .ok (.rdbuf 0) ∧
  decode 0xB0004FFFFFFFFFFFF = .ok (.rdreg 4) ∧
  decode 0xFFFFFFFFFFFFFFFFF = .error (.reservedOpcode 0xF)

/-- R4, R38: when the word the host presents decodes to a command, one step is that command executed
on the state in which the word has been taken from the port. -/
def Obligations.StepRunsDecodedCommand : Prop :=
  (∀ (s : State) (w : CmdWord) (rest : List HostEvent) (i : Instr),
    s.pending = .command w :: rest → decode w = .ok i →
    step s = exec i { s with pending := rest }) ∧
  ∀ (s : State) (nbits w : Nat) (i : Instr), decodeTableWord nbits w = some i →
    step (s.withFetchWord nbits w) = exec i s

/-- R60, R61: lines of the assembler syntax and the words they assemble to. That an operand which does not
fit its field makes the line malformed is the model's choice (notes/assumptions/13.md); R60 gives the
range of a level, and 95_test_vectors.md writes lines outside it. -/
def Obligations.AssemblerLinesGiveWords : Prop :=
  assembledWord "PIX2 2, 5, rgba(100,100,100,255)" = some 0x900020005646464FF ∧
  assembledWord "START TwoBit, 3, 0x9 ; begin" = some 0x20003000900000000 ∧
  assembledWord "START 0, 2, 2" = assembledWord "START1 2, 2" ∧
  assembledWord "QUANT1 white" = some 0x400000000FFFFFFFF ∧
  assembledWord "LUM black" = some 0x300000000000000FF ∧
  assembledWord "RDREG PITCH" = assembledWord "RDREG 3" ∧
  assembleLine "PUT1 0, 0, 2" = .malformed ∧
  assembleLine "  ; nothing" = .blank

/-- R53: exactly one response per accepted word; its 36 bits are `{code, value}`; a code other than 0
is that of the error raised, 1 to 4, and comes with value 0. -/
def Obligations.OneResponsePerCommand : Prop :=
  ∀ (s : State) (w : CmdWord) (rest : List HostEvent), s.Inv → s.pending = .command w :: rest →
    ∃ (t : State) (r : Response),
      step s = .next t ∧ t.pending = rest ∧ t.responses = s.responses ++ [r] ∧
      r.word.extractLsb' 0 32 = r.value ∧
      (r.code = .ok → r.word.extractLsb' 32 4 = 0) ∧
      (∀ e, r.code = .err e → r.value = 0 ∧ r.word.extractLsb' 32 4 =
        (match e with | .eOp => 1 | .eFmt => 2 | .eRange => 3 | .eSize => 4 : BitVec 4))

/-! ### The Luminance Quantizer (40_quantizer.md) -/

/-- R70, R73: LUM answers the luminance, whatever the alpha, and changes nothing else. -/
def Obligations.LumAnswersLuminance : Prop :=
  (∀ (a b : Coord) (d : Data), decode (mkWord 0x3 a b d) =
    .ok (.lum ⟨d.extractLsb' 24 8, d.extractLsb' 16 8, d.extractLsb' 8 8, d.extractLsb' 0 8⟩)) ∧
  ∀ (p : Pixel) (s : State), exec (.lum p) s = .next { s with
    responses := s.responses ++
      [⟨.ok, BitVec.ofNat 32 ((p.r.toNat * 299 + p.g.toNat * 587 + p.b.toNat * 114) / 1000)⟩] }

/-- R76: the weighted sum needs 18 bits, the luminance 8, and a gray pixel's luminance is its
channel. -/
def Obligations.LuminanceFitsEightBits : Prop :=
  (∀ p : Pixel, p.r.toNat * 299 + p.g.toNat * 587 + p.b.toNat * 114 ≤ 255000 ∧
    lum Config.quantizer p ≤ 255) ∧
  ∀ v a : Channel, lum Config.quantizer ⟨v, v, v, a⟩ = v.toNat

/-- R72, R74: QUANT1 answers 1 exactly for a pixel of alpha 128 or more and luminance below 192, else
0, and changes nothing else. -/
def Obligations.Quant1AnswersBinaryLevel : Prop :=
  (∀ (a b : Coord) (d : Data), decode (mkWord 0x4 a b d) =
    .ok (.quant1 ⟨d.extractLsb' 24 8, d.extractLsb' 16 8, d.extractLsb' 8 8, d.extractLsb' 0 8⟩)) ∧
  ∀ (p : Pixel) (s : State),
    let l := (p.r.toNat * 299 + p.g.toNat * 587 + p.b.toNat * 114) / 1000
    exec (.quant1 p) s = .next { s with
      responses := s.responses ++
        [⟨.ok, if p.a.toNat < 128 then 0 else if l < 192 then 1 else 0⟩] }

/-- R71, R75: QUANT2 answers the first level of the table whose condition holds, and changes nothing
else. -/
def Obligations.Quant2AnswersGrayLevel : Prop :=
  (∀ (a b : Coord) (d : Data), decode (mkWord 0x5 a b d) =
    .ok (.quant2 ⟨d.extractLsb' 24 8, d.extractLsb' 16 8, d.extractLsb' 8 8, d.extractLsb' 0 8⟩)) ∧
  ∀ (p : Pixel) (s : State),
    let l := (p.r.toNat * 299 + p.g.toNat * 587 + p.b.toNat * 114) / 1000
    exec (.quant2 p) s = .next { s with
      responses := s.responses ++
        [⟨.ok, if p.a.toNat < 64 then 0 else if 254 ≤ l then 0 else if 168 ≤ l then 1
          else if 90 ≤ l then 2 else 3⟩] }

/-- R78: `lum` is monotone in each channel; for alpha 64 or more `quant2` does not increase when `lum`
does; alpha is a gate and nothing else; the 1-bit level is no function of the 2-bit level. -/
def Obligations.QuantizerIsMonotoneAndAlphaIsAGate : Prop :=
  (∀ p q : Pixel, p.r.toNat ≤ q.r.toNat → p.g.toNat ≤ q.g.toNat → p.b.toNat ≤ q.b.toNat →
    lum Config.quantizer p ≤ lum Config.quantizer q) ∧
  (∀ p q : Pixel, 64 ≤ p.a.toNat → 64 ≤ q.a.toNat →
    lum Config.quantizer p ≤ lum Config.quantizer q →
    (quant2 Config.quantizer q).toNat ≤ (quant2 Config.quantizer p).toNat) ∧
  (∀ (p : Pixel) (a : Channel), (p.a.toNat < 64 ↔ a.toNat < 64) →
    quant2 Config.quantizer { p with a := a } = quant2 Config.quantizer p) ∧
  (∀ (p : Pixel) (a : Channel), (p.a.toNat < 128 ↔ a.toNat < 128) →
    quant1 Config.quantizer { p with a := a } = quant1 Config.quantizer p) ∧
  (∀ p : Pixel, 64 ≤ p.a.toNat → p.a.toNat < 128 → quant1 Config.quantizer p = 0) ∧
  ∃ p q : Pixel, quant2 Config.quantizer p = quant2 Config.quantizer q ∧
    quant1 Config.quantizer p ≠ quant1 Config.quantizer q

/-! ### The 1-bit Row-Major Packer (41_packer_1bit.md) -/

/-- R90, R91, R92: the row stride is the ceiling of `W/8`; the length and the position of a pixel as the
rules write them, with the largest values and the ranges the rules name. -/
def Obligations.RowStrideIsCeiling : Prop :=
  (∀ w : Nat, w ≤ 8 * stride w ∧ 8 * stride w < w + 8) ∧ stride 65535 = 8192 ∧
  (∀ w h : Nat, len1 w h = (w + 7) / 8 * h ∧ (len1 w h = 0 ↔ w = 0 ∨ h = 0)) ∧
  len1 65535 65535 = 536862720 ∧
  (∀ x y w : Nat, byte1 x y w = y * ((w + 7) / 8) + x / 8 ∧ bit1 x = 7 - x % 8) ∧
  ∀ x y w h : Nat, x < w → y < h → byte1 x y w < len1 w h

/-- R92, R96, R42 (a), (b), (d): every pixel of a 1-bit image lies inside the buffer, and two pixels never
share a bit. -/
def Obligations.PixelMap1IsSound : Prop :=
  ∀ w h x y : Nat, x < w → y < h →
    byte1 x y w < len1 w h ∧ bit1 x < 8 ∧
    ∀ x' y' : Nat, x' < w → y' < h → byte1 x' y' w = byte1 x y w → bit1 x' = bit1 x →
      x' = x ∧ y' = y

/-- R94: the padding bits of a 1-bit buffer are the least significant bits of the last byte of every
row, `7 - (W mod 8)` down to 0, and there are none when `W` is a multiple of 8. -/
def Obligations.Padding1IsLowEndOfRow : Prop :=
  ∀ w h i k : Nat, i < len1 w h → k < 8 →
    (isPadding .oneBit w h i k ↔
      w % 8 ≠ 0 ∧ i % stride w = stride w - 1 ∧ k ≤ 7 - w % 8)

/-- R93: START1 refuses a buffer longer than `BUF_BYTES` with `E_SIZE` and else begins one of zero
bytes; `ERR` stays as it was. -/
def Obligations.Start1BeginsZeroedBuffer : Prop :=
  (∀ (w h : Coord) (d : Data), decode (mkWord 0x1 w h d) = .ok (.start1 w h)) ∧
  ∀ (w h : Coord) (s : State),
    let n := (w.toNat + 7) / 8 * h.toNat
    (s.bufBytes < n → exec (.start1 w h) s = .next (s.refusedWith .eSize 0b1000)) ∧
    (n ≤ s.bufBytes → ∃ t, exec (.start1 w h) s = .next t ∧
      t = { s with
        fmt := .oneBit
        w := w
        h := h
        buf := t.buf
        responses := s.responses ++ [⟨.ok, BitVec.ofNat 32 n⟩] } ∧
      t.pitch = (w.toNat + 7) / 8 ∧ t.len = n ∧ ∀ i, i < n → t.byteAt i = some 0)

/-- R95: PUT1 tests the format, then the range, and else replaces the one bit of (x, y). -/
def Obligations.Put1ReplacesOneBit : Prop :=
  (∀ (x y : Coord) (d : Data),
    decode (mkWord 0x6 x y d) = .ok (.put1 x y (d.extractLsb' 0 1))) ∧
  ∀ (x y : Coord) (v : BinaryLevel) (s : State),
    (s.fmt ≠ .oneBit → exec (.put1 x y v) s = .next (s.refusedWith .eFmt 0b0010)) ∧
    (s.fmt = .oneBit → ¬ (x.toNat < s.w.toNat ∧ y.toNat < s.h.toNat) →
      exec (.put1 x y v) s = .next (s.refusedWith .eRange 0b0100)) ∧
    (s.Inv → s.fmt = .oneBit → x.toNat < s.w.toNat → y.toNat < s.h.toNat →
      ∃ t, exec (.put1 x y v) s = .next t ∧ WritesBit s t x y v 0)

/-- R98: PIX1 is QUANT1 followed by PUT1 of its level, as one command, and it answers the level. -/
def Obligations.Pix1IsQuant1ThenPut1 : Prop :=
  (∀ (x y : Coord) (d : Data), decode (mkWord 0x8 x y d) = .ok (.pix1 x y
    ⟨d.extractLsb' 24 8, d.extractLsb' 16 8, d.extractLsb' 8 8, d.extractLsb' 0 8⟩)) ∧
  ∀ (x y : Coord) (p : Pixel) (s : State),
    (s.fmt ≠ .oneBit → exec (.pix1 x y p) s = .next (s.refusedWith .eFmt 0b0010)) ∧
    (s.fmt = .oneBit → ¬ (x.toNat < s.w.toNat ∧ y.toNat < s.h.toNat) →
      exec (.pix1 x y p) s = .next (s.refusedWith .eRange 0b0100)) ∧
    (s.Inv → s.fmt = .oneBit → x.toNat < s.w.toNat → y.toNat < s.h.toNat →
      ∃ (v : BinaryLevel) (q t u : State),
        exec (.quant1 p) s = .next q ∧ q.responses = s.responses ++ [⟨.ok, v.zeroExtend 32⟩] ∧
        exec (.put1 x y v) s = .next u ∧
        exec (.pix1 x y p) s = .next t ∧ WritesBit s t x y v (v.zeroExtend 32) ∧ t.buf = u.buf)

/-- R37, R42 (b): PUT1 gives its pixel the level and leaves every other pixel as it was. -/
def Obligations.Put1ChangesOnePixel : Prop :=
  ∀ (x y : Coord) (v : BinaryLevel) (s : State),
    s.Inv → s.fmt = .oneBit → s.inImage x y →
    ∃ t, exec (.put1 x y v) s = .next t ∧
      ∀ x' y' : Coord, s.inImage x' y' →
        t.pixel1 x' y' = if x' = x ∧ y' = y then some v else s.pixel1 x' y'

/-! ### The 2-bit Column-Major Packer (42_packer_2bit.md) -/

/-- R110, R111, R112: bytes per column, the length and the position of a pixel as the source writes them,
with `bpc(0) = 0`, and with the largest values and the ranges the rules name. -/
def Obligations.ColumnFormulasAreTheSources : Prop :=
  bpc 0 = 0 ∧
  (∀ h : Nat, 1 ≤ h → bpc h = (h - 1) / 8 * 2 + (h - 1) % 8 / 4 + 1) ∧
  (∀ y : Nat, colbyte y = y / 8 * 2 + y % 8 / 4) ∧
  (∀ y : Nat, nshift y = y % 4 * 2 ∧ shift2 y = 6 - y % 4 * 2) ∧
  bpc 65535 = 16384 ∧
  (∀ w h : Nat, len2 w h = w * bpc h ∧ (len2 w h = 0 ↔ w = 0 ∨ h = 0)) ∧
  len2 65535 65535 = 1073725440 ∧
  (∀ x y h : Nat, byte2 x y h = x * bpc h + colbyte y) ∧
  ∀ x y w h : Nat, x < w → y < h → colbyte y < bpc h ∧ byte2 x y h < len2 w h

/-- R118: the source's formulas equal the simpler forms `ceil(H/4)` and `floor(y/4)`. -/
def Obligations.ColumnFormulasHaveSimpleForms : Prop :=
  (∀ h : Nat, bpc h = (h + 3) / 4 ∧ h ≤ 4 * bpc h ∧ 4 * bpc h < h + 4) ∧
  ∀ y : Nat, colbyte y = y / 4

/-- R112, R116, R42 (a), (b), (d): every pixel of a 2-bit image lies inside the buffer, and two pixels never
share a slot. -/
def Obligations.PixelMap2IsSound : Prop :=
  ∀ w h x y : Nat, x < w → y < h →
    byte2 x y h < len2 w h ∧ shift2 y + 1 < 8 ∧
    ∀ x' y' : Nat, x' < w → y' < h → byte2 x' y' h = byte2 x y h → nshift y' = nshift y →
      x' = x ∧ y' = y

/-- R114: the bits of a 2-bit buffer that no pixel maps to are the least significant of the last byte
of every column, `7 - 2*(H mod 4)` down to 0, and there are none when `H` is a multiple of 4. -/
def Obligations.Padding2IsLowEndOfColumn : Prop :=
  ∀ w h i k : Nat, i < len2 w h → k < 8 →
    (isPadding .twoBit w h i k ↔
      h % 4 ≠ 0 ∧ i % bpc h = bpc h - 1 ∧ k ≤ 7 - 2 * (h % 4))

/-- R31, R32, R41: the rows of a 1-bit buffer and the columns of a 2-bit buffer are contiguous blocks
of bytes in increasing order, each byte holding eight or four neighbours; pixel (0, 0) is in the most
significant position of byte 0. -/
def Obligations.RowsAndColumnsAreContiguous : Prop :=
  (∀ x y w k : Nat, x < w → k < stride w →
    (byte1 x y w = y * stride w + k ↔ 8 * k ≤ x ∧ x ≤ 8 * k + 7)) ∧
  (∀ x y w : Nat, x < w → y * stride w ≤ byte1 x y w ∧ byte1 x y w < (y + 1) * stride w) ∧
  (∀ x y h k : Nat, y < h → k < bpc h →
    (byte2 x y h = x * bpc h + k ↔ 4 * k ≤ y ∧ y ≤ 4 * k + 3)) ∧
  (∀ x y h : Nat, y < h → x * bpc h ≤ byte2 x y h ∧ byte2 x y h < (x + 1) * bpc h) ∧
  ∀ n : Nat, byte1 0 0 n = 0 ∧ bit1 0 = 7 ∧ byte2 0 0 n = 0 ∧ shift2 0 = 6

/-- R113: START2 refuses a buffer longer than `BUF_BYTES` with `E_SIZE` and else begins one of zero
bytes; `ERR` stays as it was. -/
def Obligations.Start2BeginsZeroedBuffer : Prop :=
  (∀ (w h : Coord) (d : Data), decode (mkWord 0x2 w h d) = .ok (.start2 w h)) ∧
  ∀ (w h : Coord) (s : State),
    let n := w.toNat * bpc h.toNat
    (s.bufBytes < n → exec (.start2 w h) s = .next (s.refusedWith .eSize 0b1000)) ∧
    (n ≤ s.bufBytes → ∃ t, exec (.start2 w h) s = .next t ∧
      t = { s with
        fmt := .twoBit
        w := w
        h := h
        buf := t.buf
        responses := s.responses ++ [⟨.ok, BitVec.ofNat 32 n⟩] } ∧
      t.pitch = bpc h.toNat ∧ t.len = n ∧ ∀ i, i < n → t.byteAt i = some 0)

/-- R115: PUT2 tests the format, then the range, and else replaces the slot of (x, y). -/
def Obligations.Put2ReplacesOneSlot : Prop :=
  (∀ (x y : Coord) (d : Data),
    decode (mkWord 0x7 x y d) = .ok (.put2 x y (d.extractLsb' 0 2))) ∧
  ∀ (x y : Coord) (g : GrayLevel) (s : State),
    (s.fmt ≠ .twoBit → exec (.put2 x y g) s = .next (s.refusedWith .eFmt 0b0010)) ∧
    (s.fmt = .twoBit → ¬ (x.toNat < s.w.toNat ∧ y.toNat < s.h.toNat) →
      exec (.put2 x y g) s = .next (s.refusedWith .eRange 0b0100)) ∧
    (s.Inv → s.fmt = .twoBit → x.toNat < s.w.toNat → y.toNat < s.h.toNat →
      ∃ t, exec (.put2 x y g) s = .next t ∧ WritesSlot s t x y g 0)

/-- R120: PIX2 is QUANT2 followed by PUT2 of its level, as one command, and it answers the level. -/
def Obligations.Pix2IsQuant2ThenPut2 : Prop :=
  (∀ (x y : Coord) (d : Data), decode (mkWord 0x9 x y d) = .ok (.pix2 x y
    ⟨d.extractLsb' 24 8, d.extractLsb' 16 8, d.extractLsb' 8 8, d.extractLsb' 0 8⟩)) ∧
  ∀ (x y : Coord) (p : Pixel) (s : State),
    (s.fmt ≠ .twoBit → exec (.pix2 x y p) s = .next (s.refusedWith .eFmt 0b0010)) ∧
    (s.fmt = .twoBit → ¬ (x.toNat < s.w.toNat ∧ y.toNat < s.h.toNat) →
      exec (.pix2 x y p) s = .next (s.refusedWith .eRange 0b0100)) ∧
    (s.Inv → s.fmt = .twoBit → x.toNat < s.w.toNat → y.toNat < s.h.toNat →
      ∃ (g : GrayLevel) (q t u : State),
        exec (.quant2 p) s = .next q ∧ q.responses = s.responses ++ [⟨.ok, g.zeroExtend 32⟩] ∧
        exec (.put2 x y g) s = .next u ∧
        exec (.pix2 x y p) s = .next t ∧ WritesSlot s t x y g (g.zeroExtend 32) ∧ t.buf = u.buf)

/-- R37, R42 (b): PUT2 gives its pixel the level and leaves every other pixel as it was. -/
def Obligations.Put2ChangesOnePixel : Prop :=
  ∀ (x y : Coord) (g : GrayLevel) (s : State),
    s.Inv → s.fmt = .twoBit → s.inImage x y →
    ∃ t, exec (.put2 x y g) s = .next t ∧
      ∀ x' y' : Coord, s.inImage x' y' →
        t.pixel2 x' y' = if x' = x ∧ y' = y then some g else s.pixel2 x' y'

/-- R97, R117: right after a START every pixel reads as level 0. -/
def Obligations.UnwrittenPixelsAreBackground : Prop :=
  ∀ (w h : Coord) (s : State),
    (len1 w.toNat h.toNat ≤ s.bufBytes → ∃ t, exec (.start1 w h) s = .next t ∧
      ∀ x y : Coord, t.inImage x y → t.pixel1 x y = some 0) ∧
    (len2 w.toNat h.toNat ≤ s.bufBytes → ∃ t, exec (.start2 w h) s = .next t ∧
      ∀ x y : Coord, t.inImage x y → t.pixel2 x y = some 0)

/-! ### Control and read-out (43_control_readout.md) -/

/-- R130: NOP answers 0 and changes nothing else. -/
def Obligations.NopAnswersZero : Prop :=
  (∀ (a b : Coord) (d : Data), decode (mkWord 0x0 a b d) = .ok .nop) ∧
  ∀ s : State, exec .nop s = .next { s with responses := s.responses ++ [⟨.ok, 0⟩] }

/-- R131: RDBUF answers the byte at an index below `LEN`, raises `E_RANGE` from `LEN` up, and changes
nothing else. -/
def Obligations.RdbufAnswersByte : Prop :=
  (∀ (a b : Coord) (d : Data), decode (mkWord 0xA a b d) = .ok (.rdbuf d)) ∧
  ∀ (i : Data) (s : State),
    (s.len ≤ i.toNat → exec (.rdbuf i) s = .next (s.refusedWith .eRange 0b0100)) ∧
    (s.Inv → i.toNat < s.len → ∃ t : Byte, s.byteAt i.toNat = some t ∧
      exec (.rdbuf i) s =
        .next { s with responses := s.responses ++ [⟨.ok, t.zeroExtend 32⟩] })

/-- R132, R21: RDREG answers the register of its number, zero-extended, raises `E_OP` from 7 up, and
changes nothing else; reading `ERR` does not clear it. -/
def Obligations.RdregAnswersRegister : Prop :=
  (∀ (a b : Coord) (d : Data), decode (mkWord 0xB a b d) = .ok (.rdreg a)) ∧
  ∀ s : State,
    let answers (n : Coord) (v : Data) : Prop :=
      exec (.rdreg n) s = .next { s with responses := s.responses ++ [⟨.ok, v⟩] }
    answers 0 (match s.fmt with | .oneBit => 0 | .twoBit => 1) ∧
    answers 1 (s.w.zeroExtend 32) ∧
    answers 2 (s.h.zeroExtend 32) ∧
    answers 3 (BitVec.ofNat 32 (match s.fmt with
      | .oneBit => stride s.w.toNat | .twoBit => bpc s.h.toNat)) ∧
    answers 4 (BitVec.ofNat 32 (match s.fmt with
      | .oneBit => stride s.w.toNat * s.h.toNat | .twoBit => s.w.toNat * bpc s.h.toNat)) ∧
    answers 5 (s.err.zeroExtend 32) ∧
    answers 6 (BitVec.ofNat 32 s.bufBytes) ∧
    ∀ n : Coord, 7 ≤ n.toNat → exec (.rdreg n) s = .next (s.refusedWith .eOp 0b0001)

/-- R133: the read-out commands answer the whole artifact, `FMT`, `W`, `H`, `LEN` and the bytes in order,
and change nothing else. -/
def Obligations.ReadoutGivesPackedBuffer : Prop :=
  ∀ s : State, s.Inv →
    execAll (readoutCommands s.len) s =
      .next { s with responses := s.responses ++ s.packedBuffer.answers } ∧
    s.packedBuffer.bytes.length = s.len ∧
    ∀ i, i < s.len → s.packedBuffer.bytes[i]? = s.byteAt i

/-! ### Errors (60_exceptions.md) -/

/-- R140, R143: the codes and `ERR` bits of the four errors; and every command word either succeeds or
raises exactly one of them, where the table of R140, in the order of R143, gives its cause. -/
def Obligations.ErrorsHaveExactlyTheirCauses : Prop :=
  (CmdError.eOp.code = 1 ∧ CmdError.eFmt.code = 2 ∧ CmdError.eRange.code = 3 ∧
    CmdError.eSize.code = 4) ∧
  (CmdError.eOp.bit = 0b0001 ∧ CmdError.eFmt.bit = 0b0010 ∧ CmdError.eRange.bit = 0b0100 ∧
    CmdError.eSize.bit = 0b1000) ∧
  ∀ (s : State) (w : CmdWord) (rest : List HostEvent), s.Inv → s.pending = .command w :: rest →
    ∃ (t : State) (r : Response), step s = .next t ∧ t.responses = s.responses ++ [r] ∧
      ∀ e : CmdError, r.code = .err e ↔ wordErrorCause e s w

/-- R141: NOP, LUM, QUANT1, QUANT2 and RDREG of a number up to 6 succeed in every state, whether or not
a buffer was begun, and leave every register and byte as they were. -/
def Obligations.SomeCommandsNeverRaise : Prop :=
  ∀ (i : Instr) (s : State),
    (i = .nop ∨ (∃ p, i = .lum p) ∨ (∃ p, i = .quant1 p) ∨ (∃ p, i = .quant2 p) ∨
      ∃ n : Coord, i = .rdreg n ∧ n.toNat ≤ 6) →
    ∃ v : Data, exec i s = .next { s with responses := s.responses ++ [⟨.ok, v⟩] }

/-- R142, R144: a word that raises an error changes nothing but the error's `ERR` bit,
`1 << (code-1)`, and answers value 0. -/
def Obligations.RaisingChangesOnlyErr : Prop :=
  ∀ (s t : State) (w : CmdWord) (rest : List HostEvent) (e : CmdError) (v : Data),
    s.pending = .command w :: rest → step s = .next t →
    t.responses = s.responses ++ [⟨.err e, v⟩] →
    v = 0 ∧ t = { s with
      pending := rest
      err := s.err ||| (1#4 <<<
        ((match e with | .eOp => 1 | .eFmt => 2 | .eRange => 3 | .eSize => 4) - 1))
      responses := s.responses ++ [⟨.err e, 0⟩] }

/-- R17, R145, R146: a bit of `ERR` is set by a word that raises its error and by nothing else, and
falls only at reset; so `err_o`, which is 1 exactly when `ERR != 0`, falls only at reset. -/
def Obligations.ErrIsStickyUntilReset : Prop :=
  (∀ s : State, s.errO = true ↔ s.err ≠ 0) ∧
  (∀ (s t : State) (w : CmdWord) (rest : List HostEvent),
    s.pending = .command w :: rest → step s = .next t →
    ((∃ v, t.responses = s.responses ++ [⟨.ok, v⟩]) ∧ t.err = s.err) ∨
    ∃ e : CmdError, t.responses = s.responses ++ [⟨.err e, 0⟩] ∧ t.err = s.err |||
      (match e with
        | .eOp => 0b0001 | .eFmt => 0b0010 | .eRange => 0b0100 | .eSize => 0b1000)) ∧
  (∀ (s t : State), (∀ rest, s.pending ≠ .reset :: rest) → step s = .next t →
    s.err &&& t.err = s.err ∧ (s.errO = true → t.errO = true)) ∧
  ∀ (s : State) (rest : List HostEvent), s.pending = .reset :: rest →
    ∃ t, step s = .next t ∧ t.err = 0 ∧ t.errO = false

/-! ### State and reset (10_state.md, 70_reset_and_hazards.md) -/

/-- R12, R13, R14: `FMT`, `W` and `H` are written by START1, START2 and reset, and by nothing else. -/
def Obligations.OnlyStartWritesGeometry : Prop :=
  (∀ (s t : State) (w : CmdWord) (rest : List HostEvent),
    s.pending = .command w :: rest → step s = .next t →
    (t.fmt = s.fmt ∧ t.w = s.w ∧ t.h = s.h) ∨
    (∃ a b : Coord, decode w = .ok (.start1 a b) ∧ t.fmt = .oneBit ∧ t.w = a ∧ t.h = b) ∨
    (∃ a b : Coord, decode w = .ok (.start2 a b) ∧ t.fmt = .twoBit ∧ t.w = a ∧ t.h = b)) ∧
  ∀ (s t : State) (rest : List HostEvent), s.pending = .reset :: rest → step s = .next t →
    t.fmt = .oneBit ∧ t.w = 0 ∧ t.h = 0

/-- R18, R35: a command that is neither a START nor a PUT or PIX leaves every byte of `BUF` as it
was. -/
def Obligations.OnlyPackersWriteBuf : Prop :=
  ∀ (i : Instr) (s t : State), mayWriteBuf i = false → exec i s = .next t →
    ∀ j, t.byteAt j = s.byteAt j

/-- R15, R16: `PITCH` and `LEN` are functions of `FMT`, `W` and `H`; they fit their widths, with the
largest values the rules name, and are 0 after reset. -/
def Obligations.DerivedRegistersFit : Prop :=
  (∀ s : State,
    s.pitch = (match s.fmt with | .oneBit => stride s.w.toNat | .twoBit => bpc s.h.toNat) ∧
    s.len = (match s.fmt with
      | .oneBit => stride s.w.toNat * s.h.toNat | .twoBit => s.w.toNat * bpc s.h.toNat) ∧
    s.pitch ≤ 16384 ∧ s.len ≤ 1073725440 ∧
    (BitVec.ofNat 32 s.pitch).toNat = s.pitch ∧ (BitVec.ofNat 32 s.len).toNat = s.len ∧
    (s.fmt = .oneBit → s.pitch ≤ 8192 ∧ s.len ≤ 536862720)) ∧
  stride 65535 = 8192 ∧ bpc 65535 = 16384 ∧
  len1 65535 65535 = 536862720 ∧ len2 65535 65535 = 1073725440 ∧
  State.reset.pitch = 0 ∧ State.reset.len = 0

/-- The values of R22 in the state after reset: the registers, the derived ones and the error output are
0, and no byte of `BUF` can be read. That nothing is pending then, for R22's "no command in execution",
and that a word presented next is taken and answered, for its `cmd_ready`, are the model's choice of
what stands at the port (notes/assumptions/2.md). -/
def Obligations.ResetStateValues : Prop :=
  State.reset.fmt = .oneBit ∧ State.reset.w = 0 ∧ State.reset.h = 0 ∧ State.reset.err = 0 ∧
  State.reset.pitch = 0 ∧ State.reset.len = 0 ∧ State.reset.errO = false ∧
  State.reset.pending = [] ∧
  (∀ i : Data, exec (.rdbuf i) State.reset = .next (State.reset.refusedWith .eRange 0b0100)) ∧
  ∀ w : CmdWord, ∃ (t : State) (r : Response),
    step { State.reset with pending := [.command w] } = .next t ∧ t.responses = [r]

/-- R160, R162: a reset leaves the registers at 0, whatever the state was, gives no response and changes
neither the capacity nor what the host does next; and no byte of `BUF` can be read after it. -/
def Obligations.ResetEventResetsBlock : Prop :=
  ∀ (s : State) (rest : List HostEvent), s.pending = .reset :: rest →
    ∃ t, step s = .next t ∧
      t = { s with
        fmt := .oneBit
        w := 0
        h := 0
        err := 0
        buf := t.buf
        pending := rest } ∧
      t.pitch = 0 ∧ t.len = 0 ∧ t.errO = false ∧
      ∀ i : Data, exec (.rdbuf i) t = .next (t.refusedWith .eRange 0b0100)

/-- The state after reset meets the invariant; that its capacity is in range is the model's choice
(notes/assumptions/1.md). -/
def Obligations.ResetMeetsInvariant : Prop :=
  State.reset.Inv ∧ State.reset.PaddingZero

/-- R169: with nothing presented, the block waits (the model's choice of what an idle step is,
notes/assumptions/2.md). -/
def Obligations.IdleStepWaits : Prop :=
  ∀ s : State, s.pending = [] → step s = .next s

/-! ### The whole machine -/

/-- R19 (with R18, R30 and the canonical form of the memory): every step keeps the invariant. -/
def Obligations.StepKeepsInvariant : Prop :=
  ∀ s t : State, s.Inv → step s = .next t → t.Inv

/-- R42 (e), R94, R114: every step keeps all padding bits 0. -/
def Obligations.StepKeepsPaddingZero : Prop :=
  ∀ s t : State, s.Inv → s.PaddingZero → step s = .next t → t.PaddingZero

/-- R168 and 93_implementation_defined.md ("No behaviour of LQP is `stuck`"): from a state that meets the
invariant every step has a next state, which meets it again. -/
def Obligations.BlockNeverStops : Prop :=
  ∀ s : State, s.Inv → ∃ t, step s = .next t ∧ t.Inv

/-- R24, R10: the response to a command and the state after it depend on the registers and the buffer
alone, not on what was answered before nor on what the host will present. -/
def Obligations.CommandsHaveNoHiddenInput : Prop :=
  ∀ (i : Instr) (s t : State) (p : List HostEvent) (r : List Response), exec i s = .next t →
    ∃ a : Response, t.responses = s.responses ++ [a] ∧ t.pending = s.pending ∧
      exec i { s with pending := p, responses := r } =
        .next { t with pending := p, responses := r ++ [a] }

/-- R21, R23: no step changes the capacity. -/
def Obligations.CapacityIsConstant : Prop :=
  ∀ s t : State, step s = .next t → t.bufBytes = s.bufBytes

/-- R43, R97: after any list of PUT1 commands inside the image, each pixel has the level of the last
write to it, and a pixel not written has the level it had. -/
def Obligations.LastWriteDecidesPixels1 : Prop :=
  ∀ (writes : List (Coord × Coord × BinaryLevel)) (s : State), s.Inv → s.fmt = .oneBit →
    (∀ q ∈ writes, s.inImage q.1 q.2.1) →
    ∃ t, execAll (writes.map fun q => .put1 q.1 q.2.1 q.2.2) s = .next t ∧
      ∀ x y : Coord, s.inImage x y →
        t.pixel1 x y = (lastLevel writes x y).or (s.pixel1 x y)

/-- R43, R117: the same for PUT2. -/
def Obligations.LastWriteDecidesPixels2 : Prop :=
  ∀ (writes : List (Coord × Coord × GrayLevel)) (s : State), s.Inv → s.fmt = .twoBit →
    (∀ q ∈ writes, s.inImage q.1 q.2.1) →
    ∃ t, execAll (writes.map fun q => .put2 q.1 q.2.1 q.2.2) s = .next t ∧
      ∀ x y : Coord, s.inImage x y →
        t.pixel2 x y = (lastLevel writes x y).or (s.pixel2 x y)

/-- R43: two lists of writes that agree on the last level of every pixel leave the same bytes, in
whatever order the pixels were written, in either format. -/
def Obligations.WriteOrderDoesNotMatter : Prop :=
  (∀ (us vs : List (Coord × Coord × BinaryLevel)) (s : State), s.Inv → s.fmt = .oneBit →
    (∀ q ∈ us ++ vs, s.inImage q.1 q.2.1) → (∀ x y, lastLevel us x y = lastLevel vs x y) →
    ∃ t u, execAll (us.map fun q => .put1 q.1 q.2.1 q.2.2) s = .next t ∧
      execAll (vs.map fun q => .put1 q.1 q.2.1 q.2.2) s = .next u ∧
      ∀ i, t.byteAt i = u.byteAt i) ∧
  ∀ (us vs : List (Coord × Coord × GrayLevel)) (s : State), s.Inv → s.fmt = .twoBit →
    (∀ q ∈ us ++ vs, s.inImage q.1 q.2.1) → (∀ x y, lastLevel us x y = lastLevel vs x y) →
    ∃ t u, execAll (us.map fun q => .put2 q.1 q.2.1 q.2.2) s = .next t ∧
      execAll (vs.map fun q => .put2 q.1 q.2.1 q.2.2) s = .next u ∧
      ∀ i, t.byteAt i = u.byteAt i

/-- R163, R2, R42 (e): a START1 that fits followed by one PIX1 for every pixel, in any order, leaves the
1-bit bitmap of the image, with zero padding and no error recorded. -/
def Obligations.WholeImagePacks1 : Prop :=
  ∀ (w h : Coord) (image : Coord → Coord → Pixel) (order : List (Coord × Coord)) (s : State),
    s.Inv → len1 w.toNat h.toNat ≤ s.bufBytes →
    (∀ x y : Coord, (x, y) ∈ order ↔ x.toNat < w.toNat ∧ y.toNat < h.toNat) →
    ∃ t, execAll (.start1 w h :: order.map fun q => .pix1 q.1 q.2 (image q.1 q.2)) s = .next t ∧
      t.fmt = .oneBit ∧ t.w = w ∧ t.h = h ∧ t.err = s.err ∧ t.PaddingZero ∧
      ∀ x y : Coord, t.inImage x y →
        t.pixel1 x y = some (quant1 Config.quantizer (image x y))

/-- R163, R2, R42 (e): the same for START2 and PIX2. -/
def Obligations.WholeImagePacks2 : Prop :=
  ∀ (w h : Coord) (image : Coord → Coord → Pixel) (order : List (Coord × Coord)) (s : State),
    s.Inv → len2 w.toNat h.toNat ≤ s.bufBytes →
    (∀ x y : Coord, (x, y) ∈ order ↔ x.toNat < w.toNat ∧ y.toNat < h.toNat) →
    ∃ t, execAll (.start2 w h :: order.map fun q => .pix2 q.1 q.2 (image q.1 q.2)) s = .next t ∧
      t.fmt = .twoBit ∧ t.w = w ∧ t.h = h ∧ t.err = s.err ∧ t.PaddingZero ∧
      ∀ x y : Coord, t.inImage x y →
        t.pixel2 x y = some (quant2 Config.quantizer (image x y))
end

