-- ==== Sys2Proof/Laws/Decode.lean ====
section
/-! SUPPORT. The fields of a word that was made of four fields, and the channels of a pixel that was laid
out in a field (30_encoding.md R50, R52). -/

namespace Sys2Proof

@[simp] theorem opField_mkWord (op : OpBits) (a b : Coord) (d : Data) :
    opField (mkWord op a b d) = op := by
  change BitVec.extractLsb' (n := 4 + 16 + 16 + 32) 64 4 (op ++ a ++ b ++ d) = op
  rw [BitVec.extractLsb'_append_eq_of_le (by decide), BitVec.extractLsb'_append_eq_of_le (by decide),
    BitVec.extractLsb'_append_eq_of_le (by decide)]
  exact BitVec.extractLsb'_eq_self

@[simp] theorem aField_mkWord (op : OpBits) (a b : Coord) (d : Data) :
    aField (mkWord op a b d) = a := by
  change BitVec.extractLsb' (n := 4 + 16 + 16 + 32) 48 16 (op ++ a ++ b ++ d) = a
  rw [BitVec.extractLsb'_append_eq_of_le (by decide), BitVec.extractLsb'_append_eq_of_le (by decide),
    BitVec.extractLsb'_append_eq_of_add_le (by decide)]
  exact BitVec.extractLsb'_eq_self

@[simp] theorem bField_mkWord (op : OpBits) (a b : Coord) (d : Data) :
    bField (mkWord op a b d) = b := by
  change BitVec.extractLsb' (n := 4 + 16 + 16 + 32) 32 16 (op ++ a ++ b ++ d) = b
  rw [BitVec.extractLsb'_append_eq_of_le (by decide),
    BitVec.extractLsb'_append_eq_of_add_le (by decide)]
  exact BitVec.extractLsb'_eq_self

@[simp] theorem dField_mkWord (op : OpBits) (a b : Coord) (d : Data) :
    dField (mkWord op a b d) = d := by
  change BitVec.extractLsb' (n := 4 + 16 + 16 + 32) 0 32 (op ++ a ++ b ++ d) = d
  rw [BitVec.extractLsb'_append_eq_of_add_le (by decide)]
  exact BitVec.extractLsb'_eq_self

/-- A word is decoded by its fields alone. -/
@[simp] theorem decode_mkWord (op : OpBits) (a b : Coord) (d : Data) :
    decode (mkWord op a b d) = decodeFields op a b d := by
  simp only [decode, opField_mkWord, aField_mkWord, bField_mkWord, dField_mkWord]

@[simp] theorem pixelOf_dataOf (p : Pixel) : pixelOf (dataOf p) = p := by
  obtain ⟨r, g, b, a⟩ := p
  simp only [pixelOf, dataOf, Pixel.mk.injEq]
  refine ⟨?_, ?_, ?_, ?_⟩
  · change BitVec.extractLsb' (n := 8 + 8 + 8 + 8) 24 8 (r ++ g ++ b ++ a) = r
    rw [BitVec.extractLsb'_append_eq_of_le (by decide),
      BitVec.extractLsb'_append_eq_of_le (by decide),
      BitVec.extractLsb'_append_eq_of_le (by decide)]
    exact BitVec.extractLsb'_eq_self
  · change BitVec.extractLsb' (n := 8 + 8 + 8 + 8) 16 8 (r ++ g ++ b ++ a) = g
    rw [BitVec.extractLsb'_append_eq_of_le (by decide),
      BitVec.extractLsb'_append_eq_of_le (by decide),
      BitVec.extractLsb'_append_eq_of_add_le (by decide)]
    exact BitVec.extractLsb'_eq_self
  · change BitVec.extractLsb' (n := 8 + 8 + 8 + 8) 8 8 (r ++ g ++ b ++ a) = b
    rw [BitVec.extractLsb'_append_eq_of_le (by decide),
      BitVec.extractLsb'_append_eq_of_add_le (by decide)]
    exact BitVec.extractLsb'_eq_self
  · change BitVec.extractLsb' (n := 8 + 8 + 8 + 8) 0 8 (r ++ g ++ b ++ a) = a
    rw [BitVec.extractLsb'_append_eq_of_add_le (by decide)]
    exact BitVec.extractLsb'_eq_self

end Sys2Proof
end

