-- ==== Sys2Proof/Laws/Memory.lean ====
section
/-! SUPPORT. The cells of `BUF`: a read after a write, the canonical form is kept, and two memories in
canonical form that read alike are equal. -/

namespace Sys2Proof.Machine

@[simp] theorem Memory.get_nil (i : Nat) : Memory.get [] i = 0 := rfl

@[simp] theorem Memory.get_zeroed (i : Nat) : Memory.zeroed.get i = 0 := rfl

theorem Memory.get_cons (a i : Nat) (b : Byte) (m : Memory) :
    Memory.get ((a, b) :: m) i = if a = i then b else m.get i := rfl

/-- An index below every cell is unlisted. -/
theorem Memory.get_of_lt {m : Memory} {i : Nat} (h : ∀ c ∈ m, i < c.1) : m.get i = 0 := by
  induction m with
  | nil => rfl
  | cons c m ih =>
    have hc : i < c.1 := h c List.mem_cons_self
    rw [Memory.get_cons, if_neg (by omega)]
    exact ih fun d hd => h d (List.mem_cons_of_mem _ hd)

theorem Memory.wf_nil : Memory.wf [] := by decide

theorem Memory.wf_zeroed : Memory.zeroed.wf := Memory.wf_nil

theorem Memory.wf_tail {c : Host.Cell} {m : Memory} (h : Memory.wf (c :: m)) : m.wf :=
  ⟨(List.pairwise_cons.1 h.1).2, fun d hd => h.2 d (List.mem_cons_of_mem _ hd)⟩

theorem Memory.wf_head {c : Host.Cell} {m : Memory} (h : Memory.wf (c :: m)) :
    ∀ d ∈ m, c.1 < d.1 := (List.pairwise_cons.1 h.1).1

theorem Memory.wf_cons {c : Host.Cell} {m : Memory} (hm : m.wf) (hv : c.2 ≠ Memory.unlisted)
    (hlt : ∀ d ∈ m, c.1 < d.1) : Memory.wf (c :: m) :=
  ⟨List.pairwise_cons.2 ⟨hlt, hm.1⟩, fun d hd => by
    rcases List.mem_cons.1 hd with rfl | hd
    · exact hv
    · exact hm.2 d hd⟩

/-- What a cell put before a list adds: nothing but itself. -/
theorem Memory.mem_cell {i : Nat} {v : Byte} {m : Memory} {d : Host.Cell}
    (h : d ∈ Memory.cell i v m) : d = (i, v) ∨ d ∈ m := by
  unfold Memory.cell at h
  split at h
  · exact .inr h
  · exact List.mem_cons.1 h

theorem Memory.wf_cell {i : Nat} {v : Byte} {m : Memory} (hm : m.wf) (hlt : ∀ d ∈ m, i < d.1) :
    (Memory.cell i v m).wf := by
  unfold Memory.cell
  split
  · exact hm
  · exact Memory.wf_cons hm ‹_› hlt

theorem Memory.get_cell {i j : Nat} {v : Byte} {m : Memory} (hlt : ∀ d ∈ m, i < d.1) :
    (Memory.cell i v m).get j = if i = j then v else m.get j := by
  unfold Memory.cell
  split
  · next hv =>
    split
    · next hij => rw [← hij, Memory.get_of_lt hlt, hv]; rfl
    · rfl
  · exact Memory.get_cons ..

/-- A write adds no cell but its own. -/
theorem Memory.mem_set {m : Memory} {i : Nat} {v : Byte} {d : Host.Cell}
    (h : d ∈ m.set i v) : d.1 = i ∨ d ∈ m := by
  induction m with
  | nil => exact (Memory.mem_cell h).imp (fun e => by rw [e]) id
  | cons c m ih =>
    obtain ⟨a, b⟩ := c
    simp only [Memory.set] at h
    split at h
    · exact (Memory.mem_cell h).imp (fun e => by rw [e]) id
    · split at h
      · exact (Memory.mem_cell h).imp (fun e => by rw [e]) (List.mem_cons_of_mem _)
      · rcases List.mem_cons.1 h with rfl | h
        · exact .inr List.mem_cons_self
        · exact (ih h).imp id (List.mem_cons_of_mem _)

/-- A write keeps the canonical form. -/
theorem Memory.wf_set {m : Memory} (hm : m.wf) (i : Nat) (v : Byte) : (m.set i v).wf := by
  induction m with
  | nil => exact Memory.wf_cell hm (by simp)
  | cons c m ih =>
    obtain ⟨a, b⟩ := c
    have htail := Memory.wf_tail hm
    have hhead : ∀ d ∈ m, a < d.1 := Memory.wf_head hm
    simp only [Memory.set]
    split
    · next hia =>
      refine Memory.wf_cell hm fun d hd => ?_
      rcases List.mem_cons.1 hd with rfl | hd
      · exact hia
      · exact hia.trans (hhead d hd)
    · split
      · next hia => exact Memory.wf_cell htail (hia ▸ hhead)
      · next h1 h2 =>
        refine Memory.wf_cons (ih htail) (hm.2 _ List.mem_cons_self) fun d hd => ?_
        rcases Memory.mem_set hd with hd | hd
        · simp only [hd]; omega
        · exact hhead d hd

/-- A read after a write: the byte written at its index, and every other byte as before. -/
theorem Memory.get_set {m : Memory} (hm : m.wf) (i j : Nat) (v : Byte) :
    (m.set i v).get j = if i = j then v else m.get j := by
  induction m with
  | nil => exact Memory.get_cell (by simp)
  | cons c m ih =>
    obtain ⟨a, b⟩ := c
    have hhead : ∀ d ∈ m, a < d.1 := Memory.wf_head hm
    simp only [Memory.set]
    split
    · next hia =>
      refine Memory.get_cell fun d hd => ?_
      rcases List.mem_cons.1 hd with rfl | hd
      · exact hia
      · exact hia.trans (hhead d hd)
    · split
      · next hia =>
        rw [Memory.get_cell (hia ▸ hhead), Memory.get_cons]
        split <;> [rfl; rw [if_neg (by omega)]]
      · next h1 h2 =>
        rw [Memory.get_cons, Memory.get_cons, ih (Memory.wf_tail hm)]
        split
        · next haj => rw [if_neg (by omega)]
        · rfl

/-- Memories in canonical form that read alike are the same list of cells. -/
theorem Memory.eq_of_get {m n : Memory} (hm : m.wf) (hn : n.wf) (h : ∀ i, m.get i = n.get i) :
    m = n := by
  induction m generalizing n with
  | nil =>
    cases n with
    | nil => rfl
    | cons c n =>
      have := h c.1
      rw [Memory.get_nil, Memory.get_cons, if_pos rfl] at this
      exact absurd this.symm (hn.2 c List.mem_cons_self)
  | cons c m ih =>
    cases n with
    | nil =>
      have := h c.1
      rw [Memory.get_nil, Memory.get_cons, if_pos rfl] at this
      exact absurd this (hm.2 c List.mem_cons_self)
    | cons d n =>
      obtain ⟨a, b⟩ := c
      obtain ⟨a', b'⟩ := d
      have hma : ∀ d ∈ m, a < d.1 := Memory.wf_head hm
      have hna : ∀ d ∈ n, a' < d.1 := Memory.wf_head hn
      have hb : b ≠ 0 := hm.2 _ List.mem_cons_self
      have hb' : b' ≠ 0 := hn.2 _ List.mem_cons_self
      have haa : a = a' := by
        rcases Nat.lt_trichotomy a a' with hlt | heq | hlt
        · have := h a
          rw [Memory.get_cons, if_pos rfl, Memory.get_cons, if_neg (by omega),
            Memory.get_of_lt fun d hd => hlt.trans (hna d hd)] at this
          exact absurd this hb
        · exact heq
        · have := h a'
          rw [Memory.get_cons, if_neg (by omega), Memory.get_cons, if_pos rfl,
            Memory.get_of_lt fun d hd => hlt.trans (hma d hd)] at this
          exact absurd this.symm hb'
      subst haa
      have hbb : b = b' := by simpa [Memory.get_cons] using h a
      subst hbb
      have htail : m = n := ih (Memory.wf_tail hm) (Memory.wf_tail hn) fun i => by
        by_cases hai : a = i
        · subst hai
          rw [Memory.get_of_lt hma, Memory.get_of_lt hna]
        · simpa [Memory.get_cons, hai] using h i
      rw [htail]

end Sys2Proof.Machine
end

