-- ==== Sys2Proof/Laws/State.lean ====
section
/-! SUPPORT. One lemma per field per update of the state, each true by unfolding, so that no later proof
unfolds a record update; and the derived registers across the updates that leave them alone. -/

namespace Sys2Proof.Machine

@[simp] theorem setByte_fmt (s : State) (i : Nat) (b : Byte) :
    (s.setByte i b).fmt = s.fmt := rfl
@[simp] theorem setByte_w (s : State) (i : Nat) (b : Byte) :
    (s.setByte i b).w = s.w := rfl
@[simp] theorem setByte_h (s : State) (i : Nat) (b : Byte) :
    (s.setByte i b).h = s.h := rfl
@[simp] theorem setByte_err (s : State) (i : Nat) (b : Byte) :
    (s.setByte i b).err = s.err := rfl
@[simp] theorem setByte_buf (s : State) (i : Nat) (b : Byte) :
    (s.setByte i b).buf = s.buf.set i b := rfl
@[simp] theorem setByte_bufBytes (s : State) (i : Nat) (b : Byte) :
    (s.setByte i b).bufBytes = s.bufBytes := rfl
@[simp] theorem setByte_pending (s : State) (i : Nat) (b : Byte) :
    (s.setByte i b).pending = s.pending := rfl
@[simp] theorem setByte_responses (s : State) (i : Nat) (b : Byte) :
    (s.setByte i b).responses = s.responses := rfl

@[simp] theorem answer_fmt (s : State) (r : Response) :
    (s.answer r).fmt = s.fmt := rfl
@[simp] theorem answer_w (s : State) (r : Response) :
    (s.answer r).w = s.w := rfl
@[simp] theorem answer_h (s : State) (r : Response) :
    (s.answer r).h = s.h := rfl
@[simp] theorem answer_err (s : State) (r : Response) :
    (s.answer r).err = s.err := rfl
@[simp] theorem answer_buf (s : State) (r : Response) :
    (s.answer r).buf = s.buf := rfl
@[simp] theorem answer_bufBytes (s : State) (r : Response) :
    (s.answer r).bufBytes = s.bufBytes := rfl
@[simp] theorem answer_pending (s : State) (r : Response) :
    (s.answer r).pending = s.pending := rfl
@[simp] theorem answer_responses (s : State) (r : Response) :
    (s.answer r).responses = s.responses ++ [r] := rfl

@[simp] theorem respond_fmt (s : State) (v : Data) :
    (respond v s).fmt = s.fmt := rfl
@[simp] theorem respond_w (s : State) (v : Data) :
    (respond v s).w = s.w := rfl
@[simp] theorem respond_h (s : State) (v : Data) :
    (respond v s).h = s.h := rfl
@[simp] theorem respond_err (s : State) (v : Data) :
    (respond v s).err = s.err := rfl
@[simp] theorem respond_buf (s : State) (v : Data) :
    (respond v s).buf = s.buf := rfl
@[simp] theorem respond_bufBytes (s : State) (v : Data) :
    (respond v s).bufBytes = s.bufBytes := rfl
@[simp] theorem respond_pending (s : State) (v : Data) :
    (respond v s).pending = s.pending := rfl
@[simp] theorem respond_responses (s : State) (v : Data) :
    (respond v s).responses = s.responses ++ [⟨.ok, v⟩] := rfl

@[simp] theorem raise_fmt (s : State) (e : CmdError) :
    (raise e s).fmt = s.fmt := rfl
@[simp] theorem raise_w (s : State) (e : CmdError) :
    (raise e s).w = s.w := rfl
@[simp] theorem raise_h (s : State) (e : CmdError) :
    (raise e s).h = s.h := rfl
@[simp] theorem raise_err (s : State) (e : CmdError) :
    (raise e s).err = s.err ||| e.bit := rfl
@[simp] theorem raise_buf (s : State) (e : CmdError) :
    (raise e s).buf = s.buf := rfl
@[simp] theorem raise_bufBytes (s : State) (e : CmdError) :
    (raise e s).bufBytes = s.bufBytes := rfl
@[simp] theorem raise_pending (s : State) (e : CmdError) :
    (raise e s).pending = s.pending := rfl
@[simp] theorem raise_responses (s : State) (e : CmdError) :
    (raise e s).responses = s.responses ++ [⟨.err e, 0⟩] := rfl

@[simp] theorem beginBuffer_fmt (s : State) (f : Format) (w h : Coord) :
    (s.beginBuffer f w h).fmt = f := rfl
@[simp] theorem beginBuffer_w (s : State) (f : Format) (w h : Coord) :
    (s.beginBuffer f w h).w = w := rfl
@[simp] theorem beginBuffer_h (s : State) (f : Format) (w h : Coord) :
    (s.beginBuffer f w h).h = h := rfl
@[simp] theorem beginBuffer_err (s : State) (f : Format) (w h : Coord) :
    (s.beginBuffer f w h).err = s.err := rfl
@[simp] theorem beginBuffer_buf (s : State) (f : Format) (w h : Coord) :
    (s.beginBuffer f w h).buf = Memory.zeroed := rfl
@[simp] theorem beginBuffer_bufBytes (s : State) (f : Format) (w h : Coord) :
    (s.beginBuffer f w h).bufBytes = s.bufBytes := rfl
@[simp] theorem beginBuffer_pending (s : State) (f : Format) (w h : Coord) :
    (s.beginBuffer f w h).pending = s.pending := rfl
@[simp] theorem beginBuffer_responses (s : State) (f : Format) (w h : Coord) :
    (s.beginBuffer f w h).responses = s.responses := rfl

@[simp] theorem resetBlock_fmt (s : State) :
    (s.resetBlock).fmt = .oneBit := rfl
@[simp] theorem resetBlock_w (s : State) :
    (s.resetBlock).w = 0 := rfl
@[simp] theorem resetBlock_h (s : State) :
    (s.resetBlock).h = 0 := rfl
@[simp] theorem resetBlock_err (s : State) :
    (s.resetBlock).err = 0 := rfl
@[simp] theorem resetBlock_buf (s : State) :
    (s.resetBlock).buf = [] := rfl
@[simp] theorem resetBlock_bufBytes (s : State) :
    (s.resetBlock).bufBytes = s.bufBytes := rfl
@[simp] theorem resetBlock_pending (s : State) :
    (s.resetBlock).pending = s.pending := rfl
@[simp] theorem resetBlock_responses (s : State) :
    (s.resetBlock).responses = s.responses := rfl

@[simp] theorem setByte_len (s : State) (i : Nat) (b : Byte) : (s.setByte i b).len = s.len := rfl
@[simp] theorem setByte_pitch (s : State) (i : Nat) (b : Byte) : (s.setByte i b).pitch = s.pitch := rfl
@[simp] theorem answer_len (s : State) (r : Response) : (s.answer r).len = s.len := rfl
@[simp] theorem answer_pitch (s : State) (r : Response) : (s.answer r).pitch = s.pitch := rfl
@[simp] theorem respond_len (s : State) (v : Data) : (respond v s).len = s.len := rfl
@[simp] theorem respond_pitch (s : State) (v : Data) : (respond v s).pitch = s.pitch := rfl
@[simp] theorem raise_len (s : State) (e : CmdError) : (raise e s).len = s.len := rfl
@[simp] theorem raise_pitch (s : State) (e : CmdError) : (raise e s).pitch = s.pitch := rfl

@[simp] theorem beginBuffer_len (s : State) (f : Format) (w h : Coord) :
    (s.beginBuffer f w h).len = lenOf f w h := rfl
@[simp] theorem resetBlock_len (s : State) : s.resetBlock.len = 0 := by
  simp [State.len, lenOf, len1]
@[simp] theorem resetBlock_pitch (s : State) : s.resetBlock.pitch = 0 := by
  simp [State.pitch, stride]

/-- What the host presents is no part of the derived registers. -/
@[simp] theorem pending_len (s : State) (p : List HostEvent) : { s with pending := p }.len = s.len :=
  rfl
@[simp] theorem pending_pitch (s : State) (p : List HostEvent) :
    { s with pending := p }.pitch = s.pitch := rfl
@[simp] theorem pending_byteAt (s : State) (p : List HostEvent) (i : Nat) :
    { s with pending := p }.byteAt i = s.byteAt i := rfl

@[simp] theorem answer_byteAt (s : State) (r : Response) (i : Nat) :
    (s.answer r).byteAt i = s.byteAt i := rfl
@[simp] theorem respond_byteAt (s : State) (v : Data) (i : Nat) :
    (respond v s).byteAt i = s.byteAt i := rfl
@[simp] theorem raise_byteAt (s : State) (e : CmdError) (i : Nat) :
    (raise e s).byteAt i = s.byteAt i := rfl

end Sys2Proof.Machine
end

