-- ==== Sys2Proof/Laws/Ops.lean ====
section
/-! SUPPORT. For each shared operation, everything it can do, said once; the meanings are built from
these operations, so a proof about a command cites these lemmas and unfolds none of them. -/

namespace Sys2Proof.Machine

/-! ### Bytes of the buffer -/

theorem byteAt_eq_some {s : State} {i : Nat} {t : Byte} :
    s.byteAt i = some t ↔ (i < s.len ∧ i < s.bufBytes) ∧ s.buf.get i = t := by
  unfold State.byteAt
  split <;> simp_all

theorem byteAt_of_lt {s : State} {i : Nat} (h : i < s.len) (hc : i < s.bufBytes) :
    s.byteAt i = some (s.buf.get i) := byteAt_eq_some.2 ⟨⟨h, hc⟩, rfl⟩

/-- A byte at an index `>= LEN` has no value (10_state.md R18). -/
theorem byteAt_of_len_le {s : State} {i : Nat} (h : s.len ≤ i) : s.byteAt i = none :=
  if_neg fun hi => absurd hi.1 (by omega)

theorem memRead_eq {s : State} {i : Nat} {t : Byte} (h : s.byteAt i = some t) :
    memRead s i = .ok t := by simp only [memRead, h]

theorem memWrite_eq {s : State} {i : Nat} {t b : Byte} (h : s.byteAt i = some t) :
    memWrite s i b = .ok (s.setByte i b) := by simp only [memWrite, h]

/-- A read after a write of one byte. -/
theorem setByte_byteAt {s : State} (hm : s.buf.wf) {i j : Nat} {b t : Byte}
    (h : s.byteAt i = some t) :
    (s.setByte i b).byteAt j = if i = j then some b else s.byteAt j := by
  have hi := (byteAt_eq_some.1 h).1
  unfold State.byteAt
  simp only [setByte_len, setByte_bufBytes, setByte_buf, Memory.get_set hm]
  by_cases hij : i = j
  · subst hij; simp [hi]
  · simp [hij]

/-! ### Read-modify-write -/

/-- Where the byte exists, `modifyByte` writes it and answers. -/
theorem modifyByte_eq {i : Nat} {change : Byte → Byte} {v : Data} {s : State} {t : Byte}
    (h : s.byteAt i = some t) :
    modifyByte i change v s = .next (respond v (s.setByte i (change t))) := by
  simp only [modifyByte, memRead_eq h, memWrite_eq h]

/-- Where it does not, `modifyByte` stops. -/
theorem modifyByte_none {i : Nat} {change : Byte → Byte} {v : Data} {s : State}
    (h : s.byteAt i = none) : modifyByte i change v s = .fault (.noSuchIndex i) := by
  simp only [modifyByte, memRead, h]

/-- Everything `modifyByte` can do when it goes on. -/
theorem modifyByte_cases {i : Nat} {change : Byte → Byte} {v : Data} {s s' : State}
    (h : modifyByte i change v s = .next s') :
    ∃ t, s.byteAt i = some t ∧ s' = respond v (s.setByte i (change t)) := by
  cases hb : s.byteAt i with
  | none => rw [modifyByte_none hb] at h; cases h
  | some t => rw [modifyByte_eq hb] at h; exact ⟨t, rfl, (Host.Outcome.next.inj h).symm⟩

/-! ### The checks of PUT and PIX -/

theorem guarded_fmt {f : Format} {x y : Coord} {write : State → Result} {s : State}
    (h : s.fmt ≠ f) : guarded f x y write s = .next (raise .eFmt s) := if_pos h

theorem guarded_range {f : Format} {x y : Coord} {write : State → Result} {s : State}
    (hf : s.fmt = f) (h : ¬ s.inImage x y) : guarded f x y write s = .next (raise .eRange s) := by
  rw [guarded, if_neg (not_not.2 hf), if_pos h]

theorem guarded_ok {f : Format} {x y : Coord} {write : State → Result} {s : State}
    (hf : s.fmt = f) (h : s.inImage x y) : guarded f x y write s = write s := by
  rw [guarded, if_neg (not_not.2 hf), if_neg (not_not.2 h)]

/-- Everything a guarded write can do when it goes on. -/
theorem guarded_cases {f : Format} {x y : Coord} {write : State → Result} {s s' : State}
    (h : guarded f x y write s = .next s') :
    (s.fmt ≠ f ∧ s' = raise .eFmt s) ∨
    (s.fmt = f ∧ ¬ s.inImage x y ∧ s' = raise .eRange s) ∨
    (s.fmt = f ∧ s.inImage x y ∧ write s = .next s') := by
  by_cases hf : s.fmt = f
  · by_cases hr : s.inImage x y
    · rw [guarded_ok hf hr] at h
      exact .inr (.inr ⟨hf, hr, h⟩)
    · rw [guarded_range hf hr] at h
      exact .inr (.inl ⟨hf, hr, (Host.Outcome.next.inj h).symm⟩)
  · rw [guarded_fmt hf] at h
    exact .inl ⟨hf, (Host.Outcome.next.inj h).symm⟩

/-! ### Beginning a buffer -/

theorem startBuffer_fits {f : Format} {w h : Coord} {n : Nat} {s : State} (hn : n ≤ s.bufBytes) :
    startBuffer f w h n s = .next (respond (BitVec.ofNat 32 n) (s.beginBuffer f w h)) :=
  if_neg (by omega)

theorem startBuffer_tooLarge {f : Format} {w h : Coord} {n : Nat} {s : State}
    (hn : s.bufBytes < n) : startBuffer f w h n s = .next (raise .eSize s) := if_pos hn

/-- Everything a START can do. -/
theorem startBuffer_cases {f : Format} {w h : Coord} {n : Nat} {s s' : State}
    (hs : startBuffer f w h n s = .next s') :
    (s.bufBytes < n ∧ s' = raise .eSize s) ∨
    (n ≤ s.bufBytes ∧ s' = respond (BitVec.ofNat 32 n) (s.beginBuffer f w h)) := by
  by_cases hn : s.bufBytes < n
  · rw [startBuffer_tooLarge hn] at hs
    exact .inl ⟨hn, (Host.Outcome.next.inj hs).symm⟩
  · rw [startBuffer_fits (by omega)] at hs
    exact .inr ⟨by omega, (Host.Outcome.next.inj hs).symm⟩

end Sys2Proof.Machine
end

