-- ==== Sys2Proof/Laws/Exec.lean ====
section
/-! SUPPORT. What each command can do when it goes on, one inversion lemma per command, and what a step
is in each of its cases. -/

namespace Sys2Proof.Machine

/-- The three ways a PUT or PIX of format `f` at (x, y) goes on: refused for the format, refused for
the range, or the byte at `i` changed and `v` answered. -/
def PixelWrite (f : Format) (x y : Coord) (i : Nat) (change : Byte → Byte) (v : Data)
    (s s' : State) : Prop :=
  (s.fmt ≠ f ∧ s' = raise .eFmt s) ∨
  (s.fmt = f ∧ ¬ s.inImage x y ∧ s' = raise .eRange s) ∨
  (s.fmt = f ∧ s.inImage x y ∧ ∃ t, s.byteAt i = some t ∧ s' = respond v (s.setByte i (change t)))

theorem pixelWrite_of_guarded {f : Format} {x y : Coord} {i : Nat} {change : Byte → Byte}
    {v : Data} {s s' : State} (h : guarded f x y (modifyByte i change v) s = .next s') :
    PixelWrite f x y i change v s s' :=
  (guarded_cases h).imp id (Or.imp id fun ⟨hf, hr, hw⟩ => ⟨hf, hr, modifyByte_cases hw⟩)

theorem execNop_eq (s : State) : exec .nop s = .next (respond 0 s) := rfl

theorem execLum_eq (p : Pixel) (s : State) :
    exec (.lum p) s = .next (respond (BitVec.ofNat 32 (lum Config.quantizer p)) s) := rfl

theorem execQuant1_eq (p : Pixel) (s : State) :
    exec (.quant1 p) s = .next (respond ((quant1 Config.quantizer p).zeroExtend 32) s) := rfl

theorem execQuant2_eq (p : Pixel) (s : State) :
    exec (.quant2 p) s = .next (respond ((quant2 Config.quantizer p).zeroExtend 32) s) := rfl

theorem execStart1_cases {w h : Coord} {s s' : State} (hs : exec (.start1 w h) s = .next s') :
    (s.bufBytes < len1 w.toNat h.toNat ∧ s' = raise .eSize s) ∨
    (len1 w.toNat h.toNat ≤ s.bufBytes ∧
      s' = respond (BitVec.ofNat 32 (len1 w.toNat h.toNat)) (s.beginBuffer .oneBit w h)) :=
  startBuffer_cases hs

theorem execStart2_cases {w h : Coord} {s s' : State} (hs : exec (.start2 w h) s = .next s') :
    (s.bufBytes < len2 w.toNat h.toNat ∧ s' = raise .eSize s) ∨
    (len2 w.toNat h.toNat ≤ s.bufBytes ∧
      s' = respond (BitVec.ofNat 32 (len2 w.toNat h.toNat)) (s.beginBuffer .twoBit w h)) :=
  startBuffer_cases hs

theorem execPut1_cases {x y : Coord} {v : BinaryLevel} {s s' : State}
    (h : exec (.put1 x y v) s = .next s') :
    PixelWrite .oneBit x y (byte1 x.toNat y.toNat s.w.toNat)
      (fun t => putBit t (bit1 x.toNat) v) 0 s s' :=
  pixelWrite_of_guarded h

theorem execPix1_cases {x y : Coord} {p : Pixel} {s s' : State}
    (h : exec (.pix1 x y p) s = .next s') :
    PixelWrite .oneBit x y (byte1 x.toNat y.toNat s.w.toNat)
      (fun t => putBit t (bit1 x.toNat) (quant1 Config.quantizer p))
      ((quant1 Config.quantizer p).zeroExtend 32) s s' :=
  pixelWrite_of_guarded h

theorem execPut2_cases {x y : Coord} {g : GrayLevel} {s s' : State}
    (h : exec (.put2 x y g) s = .next s') :
    PixelWrite .twoBit x y (byte2 x.toNat y.toNat s.h.toNat)
      (fun t => putSlot t (shift2 y.toNat) g) 0 s s' :=
  pixelWrite_of_guarded h

theorem execPix2_cases {x y : Coord} {p : Pixel} {s s' : State}
    (h : exec (.pix2 x y p) s = .next s') :
    PixelWrite .twoBit x y (byte2 x.toNat y.toNat s.h.toNat)
      (fun t => putSlot t (shift2 y.toNat) (quant2 Config.quantizer p))
      ((quant2 Config.quantizer p).zeroExtend 32) s s' :=
  pixelWrite_of_guarded h

theorem execRdbuf_cases {i : Data} {s s' : State} (h : exec (.rdbuf i) s = .next s') :
    (s.len ≤ i.toNat ∧ s' = raise .eRange s) ∨
    (∃ t, s.byteAt i.toNat = some t ∧ s' = respond (t.zeroExtend 32) s) := by
  change execRdbuf i s = .next s' at h
  unfold execRdbuf at h
  split at h
  · next hlen => exact .inl ⟨hlen, (Host.Outcome.next.inj h).symm⟩
  · cases hb : s.byteAt i.toNat with
    | none => simp only [memRead, hb] at h; cases h
    | some t =>
      rw [memRead_eq hb] at h
      exact .inr ⟨t, rfl, (Host.Outcome.next.inj h).symm⟩

theorem execRdreg_cases {n : Coord} {s s' : State} (h : exec (.rdreg n) s = .next s') :
    (∃ v, s.register n.toNat = some v ∧ s' = respond v s) ∨
    (s.register n.toNat = none ∧ s' = raise .eOp s) := by
  change execRdreg n s = .next s' at h
  unfold execRdreg at h
  split at h
  · next v hv => exact .inl ⟨v, hv, (Host.Outcome.next.inj h).symm⟩
  · next hv => exact .inr ⟨hv, (Host.Outcome.next.inj h).symm⟩

/-- No register has a number from 7 up (10_state.md R21). -/
theorem register_eq_none {s : State} {n : Nat} : s.register n = none ↔ 7 ≤ n := by
  unfold State.register
  split <;> simp_all
  omega

/-- The state after a command that went on, whatever the command: an error was raised, or a value was
answered on the same state, on the state with one existing byte changed, or on the state with a new
buffer that fits. -/
def CommandEffect (s t : State) : Prop :=
  (∃ e, t = raise e s) ∨
  (∃ v, t = respond v s) ∨
  (∃ v j b b', s.byteAt j = some b ∧ t = respond v (s.setByte j b')) ∨
  (∃ v f w h, lenOf f w h ≤ s.bufBytes ∧ t = respond v (s.beginBuffer f w h))

theorem PixelWrite.effect {f : Format} {x y : Coord} {i : Nat} {change : Byte → Byte} {v : Data}
    {s t : State} (h : PixelWrite f x y i change v s t) : CommandEffect s t := by
  rcases h with ⟨-, rfl⟩ | ⟨-, -, rfl⟩ | ⟨-, -, b, hb, rfl⟩
  · exact .inl ⟨_, rfl⟩
  · exact .inl ⟨_, rfl⟩
  · exact .inr (.inr (.inl ⟨_, _, _, _, hb, rfl⟩))

/-- Everything a command can do when it goes on. -/
theorem exec_effect {i : Instr} {s t : State} (h : exec i s = .next t) : CommandEffect s t := by
  cases i with
  | nop => exact .inr (.inl ⟨_, (Host.Outcome.next.inj h).symm⟩)
  | start1 w h' =>
    rcases execStart1_cases h with ⟨-, rfl⟩ | ⟨hn, rfl⟩
    · exact .inl ⟨_, rfl⟩
    · exact .inr (.inr (.inr ⟨_, .oneBit, _, _, hn, rfl⟩))
  | start2 w h' =>
    rcases execStart2_cases h with ⟨-, rfl⟩ | ⟨hn, rfl⟩
    · exact .inl ⟨_, rfl⟩
    · exact .inr (.inr (.inr ⟨_, .twoBit, _, _, hn, rfl⟩))
  | lum p => exact .inr (.inl ⟨_, (Host.Outcome.next.inj h).symm⟩)
  | quant1 p => exact .inr (.inl ⟨_, (Host.Outcome.next.inj h).symm⟩)
  | quant2 p => exact .inr (.inl ⟨_, (Host.Outcome.next.inj h).symm⟩)
  | put1 x y v => exact (execPut1_cases h).effect
  | put2 x y g => exact (execPut2_cases h).effect
  | pix1 x y p => exact (execPix1_cases h).effect
  | pix2 x y p => exact (execPix2_cases h).effect
  | rdbuf d =>
    rcases execRdbuf_cases h with ⟨-, rfl⟩ | ⟨b, -, rfl⟩
    · exact .inl ⟨_, rfl⟩
    · exact .inr (.inl ⟨_, rfl⟩)
  | rdreg n =>
    rcases execRdreg_cases h with ⟨v, -, rfl⟩ | ⟨-, rfl⟩
    · exact .inr (.inl ⟨_, rfl⟩)
    · exact .inl ⟨_, rfl⟩

/-- Everything a step can do when it goes on: wait, reset the block, execute the command of the word
presented, or raise `E_OP` for a word that is none. -/
theorem step_cases {s t : State} (h : step s = .next t) :
    (s.pending = [] ∧ t = s) ∨
    (∃ rest, s.pending = .reset :: rest ∧ t = { s with pending := rest }.resetBlock) ∨
    (∃ w rest i, s.pending = .command w :: rest ∧ decode w = .ok i ∧
      exec i { s with pending := rest } = .next t) ∨
    (∃ w rest e, s.pending = .command w :: rest ∧ decode w = .error e ∧
      t = raise .eOp { s with pending := rest }) := by
  unfold step at h
  split at h
  · exact .inl ⟨‹_›, (Host.Outcome.next.inj h).symm⟩
  · exact .inr (.inl ⟨_, ‹_›, (Host.Outcome.next.inj h).symm⟩)
  · split at h
    · exact .inr (.inr (.inl ⟨_, _, _, ‹_›, ‹_›, h⟩))
    · next e he =>
      cases e
      exact .inr (.inr (.inr ⟨_, _, _, ‹_›, he, (Host.Outcome.next.inj h).symm⟩))

end Sys2Proof.Machine
end

