-- ==== Sys2Proof/Laws/PerInstr.lean ====
section
/-! SUPPORT. The family EncodeFields, a fact about each command as syntax: the word it assembles to
carries its opcode and its operands in the fields of 30_encoding.md R50, and 0 in every field it does
not read (R60). -/

namespace Sys2Proof

/-- The word of a command holds its opcode and operands, each in its field. -/
def Laws.EncodeFields.Statement (i : Instr) : Prop :=
  opField (encode i) = i.opcode ∧ aField (encode i) = i.aOperand ∧
    bField (encode i) = i.bOperand ∧ dField (encode i) = i.dOperand

theorem Laws.EncodeFields.nop :
    Laws.EncodeFields.Statement .nop :=
  ⟨opField_mkWord .., aField_mkWord .., bField_mkWord .., dField_mkWord ..⟩

theorem Laws.EncodeFields.start1 (w h : Coord) :
    Laws.EncodeFields.Statement (.start1 w h) :=
  ⟨opField_mkWord .., aField_mkWord .., bField_mkWord .., dField_mkWord ..⟩

theorem Laws.EncodeFields.start2 (w h : Coord) :
    Laws.EncodeFields.Statement (.start2 w h) :=
  ⟨opField_mkWord .., aField_mkWord .., bField_mkWord .., dField_mkWord ..⟩

theorem Laws.EncodeFields.lum (p : Pixel) :
    Laws.EncodeFields.Statement (.lum p) :=
  ⟨opField_mkWord .., aField_mkWord .., bField_mkWord .., dField_mkWord ..⟩

theorem Laws.EncodeFields.quant1 (p : Pixel) :
    Laws.EncodeFields.Statement (.quant1 p) :=
  ⟨opField_mkWord .., aField_mkWord .., bField_mkWord .., dField_mkWord ..⟩

theorem Laws.EncodeFields.quant2 (p : Pixel) :
    Laws.EncodeFields.Statement (.quant2 p) :=
  ⟨opField_mkWord .., aField_mkWord .., bField_mkWord .., dField_mkWord ..⟩

theorem Laws.EncodeFields.put1 (x y : Coord) (v : BinaryLevel) :
    Laws.EncodeFields.Statement (.put1 x y v) :=
  ⟨opField_mkWord .., aField_mkWord .., bField_mkWord .., dField_mkWord ..⟩

theorem Laws.EncodeFields.put2 (x y : Coord) (g : GrayLevel) :
    Laws.EncodeFields.Statement (.put2 x y g) :=
  ⟨opField_mkWord .., aField_mkWord .., bField_mkWord .., dField_mkWord ..⟩

theorem Laws.EncodeFields.pix1 (x y : Coord) (p : Pixel) :
    Laws.EncodeFields.Statement (.pix1 x y p) :=
  ⟨opField_mkWord .., aField_mkWord .., bField_mkWord .., dField_mkWord ..⟩

theorem Laws.EncodeFields.pix2 (x y : Coord) (p : Pixel) :
    Laws.EncodeFields.Statement (.pix2 x y p) :=
  ⟨opField_mkWord .., aField_mkWord .., bField_mkWord .., dField_mkWord ..⟩

theorem Laws.EncodeFields.rdbuf (i : Data) :
    Laws.EncodeFields.Statement (.rdbuf i) :=
  ⟨opField_mkWord .., aField_mkWord .., bField_mkWord .., dField_mkWord ..⟩

theorem Laws.EncodeFields.rdreg (n : Coord) :
    Laws.EncodeFields.Statement (.rdreg n) :=
  ⟨opField_mkWord .., aField_mkWord .., bField_mkWord .., dField_mkWord ..⟩

end Sys2Proof
end

