-- ==== Sys2Proof/Laws/Quantizer.lean ====
section
/-! SUPPORT. The quantizer over the constants of the block, with their values written out
(40_quantizer.md R70 to R72), so that no later proof unfolds the configuration record. -/

namespace Sys2Proof.Machine

theorem lum_quantizer (p : Pixel) : lum Config.quantizer p =
    (p.r.toNat * 299 + p.g.toNat * 587 + p.b.toNat * 114) / 1000 := rfl

theorem quant1_quantizer (p : Pixel) : quant1 Config.quantizer p =
    if p.a.toNat < 128 then 0 else if lum Config.quantizer p < 192 then 1 else 0 := rfl

theorem quant2_quantizer (p : Pixel) : quant2 Config.quantizer p =
    if p.a.toNat < 64 then 0
    else if 254 ≤ lum Config.quantizer p then 0
    else if 168 ≤ lum Config.quantizer p then 1
    else if 90 ≤ lum Config.quantizer p then 2
    else 3 := rfl

end Sys2Proof.Machine
end

