-- ==== Sys2Proof/Tests/Slice0.lean ====
section
/-! SUPPORT. Tests of the model, each of one step on a small state, with expected values from the spec
(95_test_vectors.md unless another place is named); and a witness for every obligation that has
hypotheses, at the boundary values of its clauses. -/

namespace Sys2Proof.Machine.Tests

open Sys2Proof Sys2Proof.Machine

/-! ### Small states and what a test looks at -/

/-- After `START1 10, 3` and a write of pixel (0, 0): the 1-bit buffer of V-PUT1. -/
def bits10x3 : State := { State.reset with w := 10, h := 3, buf := [(0, 0x80)] }

/-- A 2-bit buffer of program P2 after its step 6: `START2 1, 5`, bytes 6C C0. -/
def gray1x5 : State :=
  { State.reset with fmt := .twoBit, w := 1, h := 5, buf := [(0, 0x6C), (1, 0xC0)] }

/-- After `START2 3, 9` (program P3, step 1). -/
def gray3x9 : State := { State.reset with fmt := .twoBit, w := 3, h := 9 }

/-- The state `s` with `w` at the command port. -/
def offered (s : State) (w : CmdWord) : State := { s with pending := [.command w] }

/-- Something of the state after one step, where there is a next state. -/
def afterStep {α : Type} (s : State) (f : State → α) : Option α :=
  match step s with
  | .next t => some (f t)
  | .fault _ => none
  | .refused _ => none

/-- The response words one step gives to the command word `w`. -/
def reply (s : State) (w : CmdWord) : Option (List RspWord) :=
  afterStep (offered s w) (fun t => t.responses.map Response.word)

/-- `ERR` after the command word `w`. -/
def errAfter (s : State) (w : CmdWord) : Option (BitVec 4) :=
  afterStep (offered s w) State.err

/-- The cells of `BUF` after the command word `w`. -/
def bufAfter (s : State) (w : CmdWord) : Option Memory :=
  afterStep (offered s w) State.buf

/-- `FMT`, `W`, `H` after the command word `w`. -/
def geometryAfter (s : State) (w : CmdWord) : Option (Format × Coord × Coord) :=
  afterStep (offered s w) (fun t => (t.fmt, t.w, t.h))

theorem inv_bits10x3 : bits10x3.Inv := ⟨by decide, by decide, by decide, by decide, by decide⟩

theorem inv_gray1x5 : gray1x5.Inv := ⟨by decide, by decide, by decide, by decide, by decide⟩

theorem inv_gray3x9 : gray3x9.Inv := ⟨by decide, by decide, by decide, by decide, by decide⟩

theorem inv_offered {s : State} (h : s.Inv) (w : CmdWord) : (offered s w).Inv :=
  ⟨h.capacity_min, h.capacity_max, h.len_le, h.buf_wf, h.buf_bound⟩

/-! ### WellFormed (30_encoding.md R57) -/

/-- "RDREG with `a >= 7`" is the one illegal command. -/
theorem test_wellFormed_rdreg_7 : (Instr.rdreg 7).wellFormed = false := by decide

/-- The last register number there is (10_state.md R21). -/
theorem test_wellFormed_rdreg_6 : (Instr.rdreg 6).wellFormed = true := by decide

/-- All 16 bits of the number count (R132). -/
theorem test_wellFormed_rdreg_high : (Instr.rdreg 0x8000).wellFormed = false := by decide

/-! ### Decoding: words written out field by field, op 4 bits, a 16, b 16, d 32 (30_encoding.md R50) -/

theorem test_decode_nop :
    decode (0b0000#4 ++ 0b0000000000000000#16 ++ 0b0000000000000000#16 ++
      0b00000000000000000000000000000000#32) = .ok .nop := by decide

/-- Program P4, step 1. -/
theorem test_decode_start1 :
    decode (0b0001#4 ++ 0b0000000000001010#16 ++ 0b0000000000000011#16 ++
      0b00000000000000000000000000000000#32) = .ok (.start1 10 3) := by decide

/-- Program P3, step 1. -/
theorem test_decode_start2 :
    decode (0b0010#4 ++ 0b0000000000000011#16 ++ 0b0000000000001001#16 ++
      0b00000000000000000000000000000000#32) = .ok (.start2 3 9) := by decide

/-- Vector Q13: the four channels of `0xC86432FF`. -/
theorem test_decode_lum :
    decode (0b0011#4 ++ 0b0000000000000000#16 ++ 0b0000000000000000#16 ++
      0b11001000011001000011001011111111#32) = .ok (.lum ⟨200, 100, 50, 255⟩) := by decide

/-- Vector Q4. -/
theorem test_decode_quant1 :
    decode (0b0100#4 ++ 0b0000000000000000#16 ++ 0b0000000000000000#16 ++
      0b00000000111111110000000011111111#32) = .ok (.quant1 ⟨0, 255, 0, 255⟩) := by decide

/-- Vector S7. -/
theorem test_decode_quant2 :
    decode (0b0101#4 ++ 0b0000000000000000#16 ++ 0b0000000000000000#16 ++
      0b01100100011001000110010000111111#32) = .ok (.quant2 ⟨100, 100, 100, 63⟩) := by decide

/-- V-PUT1: only `d[0]` is read. -/
theorem test_decode_put1 :
    decode (0b0110#4 ++ 0b0000000000001001#16 ++ 0b0000000000000010#16 ++
      0b11111111111111111111111111111110#32) = .ok (.put1 9 2 0) := by decide

/-- V-PUT2: only `d[1:0]` is read. -/
theorem test_decode_put2 :
    decode (0b0111#4 ++ 0b0000000000000000#16 ++ 0b0000000000000100#16 ++
      0b11111111111111111111111111111110#32) = .ok (.put2 0 4 2) := by decide

/-- Program P4, step 17. -/
theorem test_decode_pix1 :
    decode (0b1000#4 ++ 0b0000000000000101#16 ++ 0b0000000000000001#16 ++
      0b00000000000000000000000010000000#32) = .ok (.pix1 5 1 ⟨0, 0, 0, 128⟩) := by decide

/-- The example of 30_encoding.md R62. -/
theorem test_decode_pix2 :
    decode (0b1001#4 ++ 0b0000000000000010#16 ++ 0b0000000000000101#16 ++
      0b01100100011001000110010011111111#32) = .ok (.pix2 2 5 ⟨100, 100, 100, 255⟩) := by decide

/-- Section 2.4: `a` and `b` are not read. -/
theorem test_decode_rdbuf :
    decode (0b1010#4 ++ 0b1111111111111111#16 ++ 0b1111111111111111#16 ++
      0b10000000000000000000000000000001#32) = .ok (.rdbuf 0x80000001) := by decide

/-- Section 2.4: `b` and `d` are not read. -/
theorem test_decode_rdreg :
    decode (0b1011#4 ++ 0b0000000000000100#16 ++ 0b1111111111111111#16 ++
      0b11111111111111111111111111111111#32) = .ok (.rdreg 4) := by decide

/-- Section 2.5. -/
theorem test_decode_reserved :
    [0xC0000000000001234, 0xD0000000000001234, 0xE0000000000001234, 0xF0000000000001234].map decode =
      [.error (.reservedOpcode 0xC), .error (.reservedOpcode 0xD), .error (.reservedOpcode 0xE),
        .error (.reservedOpcode 0xF)] := by decide

/-- The numbering of spec/opcode_table.json: bit 64 is the lowest bit of `op`. -/
theorem test_decodeTableWord : decodeTableWord 72 (0xB0006000000000000) = some (.rdreg 6) := by
  decide

/-- What the host asks: the word presented runs in the next step (section 2.4, `CAP`). -/
theorem test_withFetchWord :
    afterStep (State.reset.withFetchWord 72 0xB0006000000000000)
      (fun t => t.responses.map Response.word) = some [0x000010000] := by decide

/-! ### One step of each command -/

/-- Section 2.4: a NOP whatever the unread fields hold. -/
theorem test_nop : reply bits10x3 0x0FFFFFFFFFFFFFFFF = some [0x000000000] := by decide

/-- Program P4, step 1, over an older buffer: the length, and the zero fill. -/
theorem test_start1 :
    reply bits10x3 0x1000A000300000000 = some [0x000000006] ∧
      bufAfter bits10x3 0x1000A000300000000 = some [] := by decide

/-- Section 2.5, `E_SIZE` at the edge: 8192*8 fits 65536 bytes, 8192*9 does not. -/
theorem test_start1_edge :
    reply State.reset 0x1FFFF000800000000 = some [0x000010000] ∧
      reply State.reset 0x1FFFF000900000000 = some [0x400000000] ∧
      geometryAfter bits10x3 0x1FFFF000900000000 = some (.oneBit, 10, 3) := by decide

/-- Program P3, step 1. -/
theorem test_start2 :
    reply bits10x3 0x20003000900000000 = some [0x000000009] ∧
      geometryAfter bits10x3 0x20003000900000000 = some (.twoBit, 3, 9) := by decide

/-- Section 2.5 at the edge, and program P6, step 5 (`bpc(0) = 0`). -/
theorem test_start2_edge :
    reply State.reset 0x24000001000000000 = some [0x000010000] ∧
      reply State.reset 0x24001001000000000 = some [0x400000000] ∧
      reply State.reset 0x20004000000000000 = some [0x000000000] := by decide

/-- Vectors Q13 and Q6. -/
theorem test_lum :
    reply State.reset 0x300000000C86432FF = some [0x00000007C] ∧
      reply State.reset 0x300000000FFFF00FF = some [0x0000000E1] := by decide

/-- Vectors Q14 to Q20: truncation; and Q36: alpha does not matter. -/
theorem test_lum_truncates :
    [0x300000000030000FF, 0x300000000040000FF, 0x300000000000100FF, 0x300000000000200FF,
      0x300000000000008FF, 0x300000000000009FF, 0x300000000FFFFFF00].map (reply State.reset) =
    [0, 1, 0, 1, 0, 1, 0xFF].map (fun v => some [v]) := by decide

/-- Vectors S8a, S8b, S8c. -/
theorem test_quant1 :
    [0x4000000000000007F, 0x400000000BFBFBF80, 0x400000000C0C0C080].map (reply State.reset) =
      [0, 1, 0].map (fun v => some [v]) := by decide

/-- Vectors Q6, Q7, Q32, Q35. -/
theorem test_quant1_colours :
    [0x400000000FFFF00FF, 0x40000000000FFFFFF, 0x40000000000000040, 0x40000000000000080].map
      (reply State.reset) = [0, 1, 0, 1].map (fun v => some [v]) := by decide

/-- Vectors S1 to S6. -/
theorem test_quant2 :
    [0x500000000FEFEFEFF, 0x500000000FDFDFDFF, 0x500000000A8A8A8FF, 0x500000000A7A7A7FF,
      0x5000000005A5A5AFF, 0x500000000595959FF].map (reply State.reset) =
    [0, 1, 1, 2, 2, 3].map (fun v => some [v]) := by decide

/-- Vectors S7, Q32 and Q40: the alpha gate. -/
theorem test_quant2_alpha :
    [0x5000000000000003F, 0x50000000000000040, 0x500000000FDFDFD0A].map (reply State.reset) =
      [0, 3, 0].map (fun v => some [v]) := by decide

/-- V-PUT1 and program P4, step 24: set pixel (9, 2); clear pixel (0, 0). -/
theorem test_put1 :
    bufAfter bits10x3 0x60009000200000001 = some [(0, 0x80), (5, 0x40)] ∧
      bufAfter bits10x3 0x60000000000000000 = some [] ∧
      bufAfter bits10x3 0x60007000000000001 = some [(0, 0x81)] := by decide

/-- Program P5, steps 2, 9, 10; and `E_FMT` before `E_RANGE` (R143). -/
theorem test_put1_errors :
    reply State.reset 0x60000000000000001 = some [0x300000000] ∧
      reply bits10x3 0x6000A000000000001 = some [0x300000000] ∧
      reply bits10x3 0x60000000300000001 = some [0x300000000] ∧
      errAfter gray1x5 0x60009000900000001 = some 0b0010 := by decide

/-- Program P2, steps 9 and 10: clear, then set; and step 6. -/
theorem test_put2 :
    bufAfter gray1x5 0x70000000100000001 = some [(0, 0x5C), (1, 0xC0)] ∧
      bufAfter { gray1x5 with buf := [(0, 0x6C)] } 0x70000000400000003 =
        some [(0, 0x6C), (1, 0xC0)] := by decide

/-- Program P2, step 11; program P5, step 3. -/
theorem test_put2_errors :
    reply gray1x5 0x70000000500000001 = some [0x300000000] ∧
      reply State.reset 0x70009000900000001 = some [0x200000000] ∧
      errAfter State.reset 0x70009000900000001 = some 0b0010 := by decide

/-- Program P4, steps 17 and 14: the level is written and answered. -/
theorem test_pix1 :
    reply bits10x3 0x80005000100000080 = some [0x000000001] ∧
      bufAfter bits10x3 0x80005000100000080 = some [(0, 0x80), (2, 0x04)] ∧
      reply bits10x3 0x800020001C0C0C0FF = some [0x000000000] := by decide

/-- The errors of PIX1 are those of PUT1 (R98). -/
theorem test_pix1_errors :
    reply gray1x5 0x800000000000000FF = some [0x200000000] ∧
      reply bits10x3 0x8000A000000000080 = some [0x300000000] := by decide

/-- The example of 42_packer_2bit.md R120. -/
theorem test_pix2 :
    reply gray3x9 0x900020005646464FF = some [0x000000002] ∧
      bufAfter gray3x9 0x900020005646464FF = some [(7, 0x20)] := by decide

/-- Program P5, step 11; out of range in a 2-bit buffer. -/
theorem test_pix2_errors :
    reply bits10x3 0x900000000000000FF = some [0x200000000] ∧
      reply gray3x9 0x900030000000000FF = some [0x300000000] := by decide

/-- Program P2, steps 7 and 8; an unread field full of ones (section 2.4). -/
theorem test_rdbuf :
    reply gray1x5 0xA0000000000000000 = some [0x00000006C] ∧
      reply gray1x5 0xAFFFFFFFF00000001 = some [0x0000000C0] := by decide

/-- Section 2.4 from reset; the index just past the end. -/
theorem test_rdbuf_errors :
    reply gray1x5 0xA0000000000000002 = some [0x300000000] ∧
      errAfter State.reset 0xA0000000000000000 = some 0b0100 := by decide

/-- The example of 43_control_readout.md R132, and `CAP`. -/
theorem test_rdreg :
    [0xB0000000000000000, 0xB0001000000000000, 0xB0002000000000000, 0xB0003000000000000,
      0xB0004000000000000, 0xB0005000000000000, 0xB0006000000000000].map (reply gray3x9) =
    [1, 3, 9, 3, 9, 0, 0x10000].map (fun v => some [v]) := by decide

/-- Program P5, step 13; section 2.5, `RDREG 65535`. -/
theorem test_rdreg_errors :
    reply gray3x9 0xB0007000000000000 = some [0x100000000] ∧
      errAfter gray3x9 0xBFFFF000000000000 = some 0b0001 := by decide

/-- Section 2.5: a reserved opcode. -/
theorem test_reserved :
    reply bits10x3 0xC0000000000001234 = some [0x100000000] ∧
      errAfter { bits10x3 with err := 0b0100 } 0xFFFFFFFFFFFFFFFFF = some 0b0101 := by decide

/-- Reset (R160) clears the registers and gives no response. -/
theorem test_reset :
    afterStep { gray1x5 with err := 0xF, pending := [.reset] } (fun t => t) =
      some State.reset := by decide

/-! ### Where pixels lie -/

/-- V-ADDR1, three rows. -/
theorem test_addr1 :
    (byte1 16 3 17, bit1 16) = (11, 7) ∧ (byte1 295 127 296, bit1 295) = (4735, 0) ∧
      (byte1 65534 65534 65535, bit1 65534) = (536862719, 1) := by decide

/-- V-ADDR2, three rows. -/
theorem test_addr2 :
    (byte2 2 5 9, shift2 5) = (7, 4) ∧ (byte2 4 12 13, shift2 12) = (19, 6) ∧
      (byte2 65534 65534 65535, shift2 65534) = (1073725439, 2) := by decide

/-- V-BPC and V-STRIDE. -/
theorem test_bpc_stride :
    [0, 1, 4, 5, 8, 9, 12, 13, 16, 17, 1000, 65532, 65533].map bpc =
      [0, 1, 1, 2, 2, 3, 3, 4, 4, 5, 250, 16383, 16384] ∧
    [0, 1, 7, 8, 9, 200, 65528, 65529].map stride = [0, 1, 1, 1, 2, 25, 8191, 8192] := by decide

/-! ### Memory -/

/-- Writing what an unlisted index reads as removes the cell; the rest stays in order. -/
theorem test_memory_set :
    Memory.set [(0, 0x80), (5, 0x40)] 3 0x01 = [(0, 0x80), (3, 0x01), (5, 0x40)] ∧
      Memory.set [(0, 0x80), (5, 0x40)] 0 0x00 = [(5, 0x40)] ∧
      Memory.set [(0, 0x80)] 0 0x01 = [(0, 0x01)] := by decide

/-- A list out of order, and a list with a cell of 0x00, are not canonical. -/
theorem test_memory_wf :
    ¬ Memory.wf [(5, 0x40), (0, 0x80)] ∧ ¬ Memory.wf [(0, 0x00)] ∧
      Memory.wf [(0, 0x80), (5, 0x40)] := by decide

/-! ### Assembler (30_encoding.md R60, R61) -/

/-- A line of program P5, its comment and spaces; hexadecimal and decimal. -/
theorem test_assembler :
    assembledWord "  PUT1 7,0, 0x1 ; byte 0" = some 0x60007000000000001 ∧
      assembledWord "START2 300, 1000" = some 0x2012C03E800000000 := by decide

/-- Vector Q13 as a hexadecimal number; a letter is no decimal digit. -/
theorem test_assembler_digits :
    assembledWord "LUM 0xC86432FF" = some 0x300000000C86432FF ∧
      assembleLine "RDBUF 1A" = .malformed := by decide

/-- `g` in 0 .. 3 (what is outside is malformed by notes/assumptions/13.md), and a colour name. -/
theorem test_assembler_ranges :
    assembleLine "PUT2 0, 0, 4" = .malformed ∧
      assembledWord "PIX1 1, 1, black" = some 0x800010001000000FF := by decide

/-! ### Witnesses: the hypotheses of each obligation can be met, each clause at its boundary -/

/-- Each opcode the clauses name is that of a word. -/
theorem witness_CommandWordFieldPositions (op : OpBits) :
    (mkWord op 0xFFFF 0xFFFF 0xFFFFFFFF).extractLsb' 64 4 = op := by
  revert op; decide

/-- The last defined opcode and the first reserved one. -/
theorem witness_ReservedOpcodeRaisesEOp :
    (offered bits10x3 0xBFFFFFFFFFFFFFFFF).pending = [.command 0xBFFFFFFFFFFFFFFFF] ∧
      (0xBFFFFFFFFFFFFFFFF : CmdWord).extractLsb' 64 4 < (0xC : BitVec 4) ∧
      (0xC : BitVec 4) ≤ (0xC0000000000000000 : CmdWord).extractLsb' 64 4 ∧
      (0xC : BitVec 4) ≤ (0xFFFFFFFFFFFFFFFFF : CmdWord).extractLsb' 64 4 := by decide

/-- Two words that differ in a bit PUT1 does not read, and the commands on either side of R57's limit. -/
theorem witness_UnreadBitsAreIgnored :
    (0x60001000200000001 : CmdWord) ≠ 0x600010002FFFFFFFF ∧
      (0x60001000200000001 &&& readMask (opField 0x60001000200000001) : CmdWord) =
        0x600010002FFFFFFFF &&& readMask (opField 0x600010002FFFFFFFF) ∧
      (Instr.rdreg 7).wellFormed = false ∧ (Instr.rdreg 6).wellFormed = true := by decide

theorem witness_StepRunsDecodedCommand :
    (offered gray1x5 0x70000000100000001).pending = [.command 0x70000000100000001] ∧
      decode 0x70000000100000001 = .ok (.put2 0 1 1) ∧
      decodeTableWord 72 0x70000000100000001 = some (.put2 0 1 1) := by decide

theorem witness_OneResponsePerCommand :
    (offered gray1x5 0xA0000000000000002).Inv ∧
      (offered gray1x5 0xA0000000000000002).pending = [.command 0xA0000000000000002] :=
  ⟨inv_offered inv_gray1x5 _, rfl⟩

/-- Brighter pixels of alpha 64; alpha on one side of each gate, at both ends. -/
theorem witness_QuantizerIsMonotoneAndAlphaIsAGate :
    (let p : Pixel := ⟨89, 89, 89, 64⟩
     let q : Pixel := ⟨90, 90, 90, 64⟩
     p.r.toNat ≤ q.r.toNat ∧ p.g.toNat ≤ q.g.toNat ∧ p.b.toNat ≤ q.b.toNat ∧
       64 ≤ p.a.toNat ∧ 64 ≤ q.a.toNat ∧ lum Config.quantizer p ≤ lum Config.quantizer q) ∧
    (((63 : Channel).toNat < 64 ↔ (0 : Channel).toNat < 64) ∧
      ((64 : Channel).toNat < 64 ↔ (255 : Channel).toNat < 64)) ∧
    (((127 : Channel).toNat < 128 ↔ (0 : Channel).toNat < 128) ∧
      ((128 : Channel).toNat < 128 ↔ (255 : Channel).toNat < 128)) ∧
    64 ≤ (64 : Channel).toNat ∧ (127 : Channel).toNat < 128 := by decide

/-- The last pixel of a 10x3 and of the largest image. -/
theorem witness_RowStrideIsCeiling : (9 < 10 ∧ 2 < 3) ∧ (65534 : Nat) < 65535 := by decide

/-- One pixel given twice has the same byte and bit; two neighbours share the byte, not the bit. -/
theorem witness_PixelMap1IsSound :
    9 < 10 ∧ 8 < 10 ∧ 2 < 3 ∧ byte1 8 2 10 = byte1 9 2 10 ∧ bit1 8 ≠ bit1 9 := by decide

/-- The last byte of a row with padding (bits 5 to 0), and of a row without. -/
theorem witness_Padding1IsLowEndOfRow :
    5 < len1 10 3 ∧ (10 % 8 ≠ 0 ∧ 5 % stride 10 = stride 10 - 1 ∧ 5 ≤ 7 - 10 % 8) ∧
      ¬ 6 ≤ 7 - 10 % 8 ∧ 3 < len1 16 2 ∧ 16 % 8 = 0 := by decide

/-- A buffer that fits exactly, and one a row longer. -/
theorem witness_Start1BeginsZeroedBuffer :
    ((65535 : Coord).toNat + 7) / 8 * (8 : Coord).toNat = State.reset.bufBytes ∧
      State.reset.bufBytes < ((65535 : Coord).toNat + 7) / 8 * (9 : Coord).toNat := by decide

/-- The other format; the first column outside; the last pixel. -/
theorem witness_Put1ReplacesOneBit :
    gray1x5.fmt ≠ .oneBit ∧
      (bits10x3.fmt = .oneBit ∧
        ¬ ((10 : Coord).toNat < bits10x3.w.toNat ∧ (2 : Coord).toNat < bits10x3.h.toNat)) ∧
      (bits10x3.Inv ∧ (9 : Coord).toNat < bits10x3.w.toNat ∧
        (2 : Coord).toNat < bits10x3.h.toNat) :=
  ⟨by decide, by decide, inv_bits10x3, by decide, by decide⟩

/-- The other format; the first row outside; the first pixel. -/
theorem witness_Pix1IsQuant1ThenPut1 :
    gray1x5.fmt ≠ .oneBit ∧
      (bits10x3.fmt = .oneBit ∧
        ¬ ((0 : Coord).toNat < bits10x3.w.toNat ∧ (3 : Coord).toNat < bits10x3.h.toNat)) ∧
      (bits10x3.Inv ∧ (0 : Coord).toNat < bits10x3.w.toNat ∧
        (0 : Coord).toNat < bits10x3.h.toNat) :=
  ⟨by decide, by decide, inv_bits10x3, by decide, by decide⟩

/-- A pixel and its neighbour in the same byte. -/
theorem witness_Put1ChangesOnePixel :
    bits10x3.Inv ∧ bits10x3.fmt = .oneBit ∧ bits10x3.inImage 9 2 ∧ bits10x3.inImage 8 2 :=
  ⟨inv_bits10x3, by decide, by decide, by decide⟩

theorem witness_ColumnFormulasAreTheSources : (1 ≤ 1 ∧ 1 ≤ 65535) ∧ 2 < 3 ∧ 8 < 9 := by decide

/-- Two rows that share a byte, not a slot. -/
theorem witness_PixelMap2IsSound :
    2 < 3 ∧ 7 < 9 ∧ 4 < 9 ∧ byte2 2 4 9 = byte2 2 7 9 ∧ nshift 4 ≠ nshift 7 := by decide

/-- The last byte of a column with padding (bits 5 to 0), and of a column without. -/
theorem witness_Padding2IsLowEndOfColumn :
    1 < len2 1 5 ∧ (5 % 4 ≠ 0 ∧ 1 % bpc 5 = bpc 5 - 1 ∧ 5 ≤ 7 - 2 * (5 % 4)) ∧
      ¬ 6 ≤ 7 - 2 * (5 % 4) ∧ 1 < len2 1 8 ∧ 8 % 4 = 0 := by decide

/-- The eighth and the ninth pixel of a row; the fourth and the fifth of a column. -/
theorem witness_RowsAndColumnsAreContiguous :
    (7 < 10 ∧ 8 < 10 ∧ 0 < stride 10 ∧ 1 < stride 10) ∧
      (3 < 5 ∧ 4 < 5 ∧ 0 < bpc 5 ∧ 1 < bpc 5) := by decide

/-- A buffer that fits exactly, and one a column longer. -/
theorem witness_Start2BeginsZeroedBuffer :
    (16384 : Coord).toNat * bpc (16 : Coord).toNat = State.reset.bufBytes ∧
      State.reset.bufBytes < (16385 : Coord).toNat * bpc (16 : Coord).toNat := by decide

/-- The other format; the first row outside; the last pixel. -/
theorem witness_Put2ReplacesOneSlot :
    bits10x3.fmt ≠ .twoBit ∧
      (gray1x5.fmt = .twoBit ∧
        ¬ ((0 : Coord).toNat < gray1x5.w.toNat ∧ (5 : Coord).toNat < gray1x5.h.toNat)) ∧
      (gray1x5.Inv ∧ (0 : Coord).toNat < gray1x5.w.toNat ∧
        (4 : Coord).toNat < gray1x5.h.toNat) :=
  ⟨by decide, by decide, inv_gray1x5, by decide, by decide⟩

/-- The other format; the first column outside; the last pixel. -/
theorem witness_Pix2IsQuant2ThenPut2 :
    bits10x3.fmt ≠ .twoBit ∧
      (gray3x9.fmt = .twoBit ∧
        ¬ ((3 : Coord).toNat < gray3x9.w.toNat ∧ (8 : Coord).toNat < gray3x9.h.toNat)) ∧
      (gray3x9.Inv ∧ (2 : Coord).toNat < gray3x9.w.toNat ∧
        (8 : Coord).toNat < gray3x9.h.toNat) :=
  ⟨by decide, by decide, inv_gray3x9, by decide, by decide⟩

/-- A pixel and its neighbour in the same byte. -/
theorem witness_Put2ChangesOnePixel :
    gray1x5.Inv ∧ gray1x5.fmt = .twoBit ∧ gray1x5.inImage 0 3 ∧ gray1x5.inImage 0 2 :=
  ⟨inv_gray1x5, by decide, by decide, by decide⟩

theorem witness_UnwrittenPixelsAreBackground :
    len1 (65535 : Coord).toNat (8 : Coord).toNat ≤ bits10x3.bufBytes ∧
      len2 (16384 : Coord).toNat (16 : Coord).toNat ≤ bits10x3.bufBytes ∧
      afterStep (offered bits10x3 0x20001000100000000) (fun t => decide (t.inImage 0 0)) =
        some true := by decide

/-- The first index past the end, and the last one inside. -/
theorem witness_RdbufAnswersByte :
    gray1x5.len ≤ (2 : Data).toNat ∧ gray1x5.Inv ∧ (1 : Data).toNat < gray1x5.len :=
  ⟨by decide, inv_gray1x5, by decide⟩

theorem witness_RdregAnswersRegister :
    7 ≤ (7 : Coord).toNat ∧ 7 ≤ (65535 : Coord).toNat := by decide

theorem witness_ReadoutGivesPackedBuffer : gray1x5.Inv ∧ 1 < gray1x5.len :=
  ⟨inv_gray1x5, by decide⟩

/-- Each error has a word that causes it, and a NOP causes none. -/
theorem witness_ErrorsHaveExactlyTheirCauses :
    ((offered gray1x5 0).Inv ∧ (offered gray1x5 0).pending = [.command 0]) ∧
      wordErrorCause .eOp gray1x5 0xC0000000000000000 ∧
      wordErrorCause .eFmt gray1x5 0x60000000000000001 ∧
      wordErrorCause .eRange gray1x5 0x70000000500000001 ∧
      wordErrorCause .eSize gray1x5 0x1FFFF000900000000 ∧
      ¬ wordErrorCause .eOp gray1x5 0 :=
  ⟨⟨inv_offered inv_gray1x5 0, rfl⟩, rfl, (by decide : gray1x5.fmt ≠ .oneBit),
    (by decide : gray1x5.fmt = .twoBit ∧ ¬ gray1x5.inImage 0 5), ⟨rfl, by decide⟩, id⟩

theorem witness_SomeCommandsNeverRaise :
    ∃ n : Coord, Instr.rdreg 6 = .rdreg n ∧ n.toNat ≤ 6 := ⟨6, rfl, by decide⟩

/-- A word that raises an error. -/
theorem witness_RaisingChangesOnlyErr :
    (offered gray1x5 0xA0000000000000002).pending = [.command 0xA0000000000000002] ∧
      ∃ t, step (offered gray1x5 0xA0000000000000002) = .next t ∧
        t.responses = (offered gray1x5 0xA0000000000000002).responses ++ [⟨.err .eRange, 0⟩] :=
  ⟨rfl, _, rfl, rfl⟩

/-- A command, and a reset, in a state with errors recorded. -/
theorem witness_ErrIsStickyUntilReset :
    let s := { gray1x5 with err := 0b0101 }
    s.errO = true ∧ (∃ t, step (offered s 0xA0000000000000002) = .next t) ∧
      (∀ rest, (offered s 0xA0000000000000002).pending ≠ .reset :: rest) ∧
      { s with pending := [.reset] }.pending = .reset :: [] :=
  ⟨by decide, ⟨_, rfl⟩, (by simp [offered]), rfl⟩

theorem witness_OnlyStartWritesGeometry :
    (offered gray1x5 0x1000A000300000000).pending = [.command 0x1000A000300000000] ∧
      (∃ t, step (offered gray1x5 0x1000A000300000000) = .next t) ∧
      ∃ t, step { gray1x5 with pending := [.reset] } = .next t :=
  ⟨rfl, ⟨_, rfl⟩, ⟨_, rfl⟩⟩

theorem witness_OnlyPackersWriteBuf :
    mayWriteBuf (.rdbuf 0) = false ∧ ∃ t, exec (.rdbuf 0) gray1x5 = .next t := ⟨rfl, _, rfl⟩

theorem witness_DerivedRegistersFit : bits10x3.fmt = .oneBit ∧ gray1x5.fmt = .twoBit := by decide

theorem witness_ResetEventResetsBlock :
    { gray1x5 with pending := [.reset, .command 0] }.pending = .reset :: [.command 0] := rfl

theorem witness_IdleStepWaits : gray1x5.pending = [] := rfl

/-- A step that writes `BUF`, from a state of the invariant. -/
theorem witness_StepKeepsInvariant :
    (offered gray1x5 0x70000000100000001).Inv ∧
      ∃ t, step (offered gray1x5 0x70000000100000001) = .next t :=
  ⟨inv_offered inv_gray1x5 _, _, rfl⟩

/-- The one byte of `bits10x3` that is not zero holds eight pixels and no padding. -/
theorem padding_bits10x3 : bits10x3.PaddingZero := by
  intro i t k h hk hp
  have hget : bits10x3.buf.get i = t := by
    simp only [State.byteAt] at h
    split at h
    · exact Option.some.inj h
    · cases h
  simp only [bits10x3, Memory.get, Memory.unlisted] at hget
  split at hget
  · rename_i h0
    subst h0
    exact absurd ⟨by simp only [byte1, Nat.zero_mul]; omega, by simp only [bit1]; omega⟩
      (hp (7 - k) 0 (by simp [bits10x3]; omega) (by decide))
  · subst hget
    simp

theorem witness_StepKeepsPaddingZero :
    (offered bits10x3 0x60009000200000001).Inv ∧ (offered bits10x3 0x60009000200000001).PaddingZero ∧
      ∃ t, step (offered bits10x3 0x60009000200000001) = .next t :=
  ⟨inv_offered inv_bits10x3 _, padding_bits10x3, _, rfl⟩

theorem witness_BlockNeverStops : gray1x5.Inv := inv_gray1x5

theorem witness_CommandsHaveNoHiddenInput : ∃ t, exec (.put2 0 1 1) gray1x5 = .next t := ⟨_, rfl⟩

theorem witness_CapacityIsConstant :
    ∃ t, step (offered gray1x5 0x20003000900000000) = .next t := ⟨_, rfl⟩

/-- One pixel written twice, another once, a third not at all. -/
theorem witness_LastWriteDecidesPixels1 :
    bits10x3.Inv ∧ bits10x3.fmt = .oneBit ∧
      (∀ q ∈ ([(0, 2, 1), (0, 2, 0), (9, 2, 1)] : List (Coord × Coord × BinaryLevel)),
        bits10x3.inImage q.1 q.2.1) ∧
      lastLevel ([(0, 2, 1), (0, 2, 0), (9, 2, 1)] : List (Coord × Coord × BinaryLevel)) 0 2 =
        some 0 ∧
      bits10x3.inImage 8 2 :=
  ⟨inv_bits10x3, by decide, by simp [State.inImage, bits10x3], by decide, by decide⟩

theorem witness_LastWriteDecidesPixels2 :
    gray1x5.Inv ∧ gray1x5.fmt = .twoBit ∧
      (∀ q ∈ ([(0, 1, 2), (0, 1, 1), (0, 4, 3)] : List (Coord × Coord × GrayLevel)),
        gray1x5.inImage q.1 q.2.1) ∧
      lastLevel ([(0, 1, 2), (0, 1, 1), (0, 4, 3)] : List (Coord × Coord × GrayLevel)) 0 1 =
        some 1 ∧
      gray1x5.inImage 0 0 :=
  ⟨inv_gray1x5, by decide, by simp [State.inImage, gray1x5], by decide, by decide⟩

/-- Two writes to different pixels, in both orders, agree on the last level of every pixel. -/
theorem lastLevel_swap {n : Nat} (p q : Coord × Coord × BitVec n)
    (h : ¬ (p.1 = q.1 ∧ p.2.1 = q.2.1)) (x y : Coord) :
    lastLevel [p, q] x y = lastLevel [q, p] x y := by
  have reversed : ∀ a b : Coord × Coord × BitVec n, [a, b].reverse = [b, a] := fun _ _ => rfl
  simp only [lastLevel, reversed, List.find?]
  by_cases hp : p.1 = x ∧ p.2.1 = y <;> by_cases hq : q.1 = x ∧ q.2.1 = y <;> simp [hp, hq]
  exact absurd ⟨hp.1.trans hq.1.symm, hp.2.trans hq.2.symm⟩ h

theorem witness_WriteOrderDoesNotMatter :
    (bits10x3.Inv ∧ bits10x3.fmt = .oneBit ∧
      (∀ q ∈ ([(0, 0, 0), (1, 0, 1)] ++ [(1, 0, 1), (0, 0, 0)] :
        List (Coord × Coord × BinaryLevel)), bits10x3.inImage q.1 q.2.1) ∧
      ∀ x y : Coord, lastLevel ([(0, 0, 0), (1, 0, 1)] : List (Coord × Coord × BinaryLevel)) x y =
        lastLevel [(1, 0, 1), (0, 0, 0)] x y) ∧
    (gray1x5.Inv ∧ gray1x5.fmt = .twoBit ∧
      (∀ q ∈ ([(0, 0, 0), (0, 1, 3)] ++ [(0, 1, 3), (0, 0, 0)] :
        List (Coord × Coord × GrayLevel)), gray1x5.inImage q.1 q.2.1) ∧
      ∀ x y : Coord, lastLevel ([(0, 0, 0), (0, 1, 3)] : List (Coord × Coord × GrayLevel)) x y =
        lastLevel [(0, 1, 3), (0, 0, 0)] x y) :=
  ⟨⟨inv_bits10x3, by decide, by simp [State.inImage, bits10x3], lastLevel_swap _ _ (by decide)⟩,
    ⟨inv_gray1x5, by decide, by simp [State.inImage, gray1x5], lastLevel_swap _ _ (by decide)⟩⟩

/-- The four pixels of a 2x2 image, in an order of their own (program P1's image). -/
theorem order_covers_2x2 (x y : Coord) :
    (x, y) ∈ ([(1, 1), (0, 0), (0, 1), (1, 0)] : List (Coord × Coord)) ↔
      x.toNat < (2 : Coord).toNat ∧ y.toNat < (2 : Coord).toNat := by
  have h : ∀ z : Coord, z.toNat < (2 : Coord).toNat ↔ z = 0 ∨ z = 1 := by
    intro z
    constructor
    · intro hz
      have hz : z.toNat < 2 := hz
      rcases (by omega : z.toNat = 0 ∨ z.toNat = 1) with h0 | h1
      · exact .inl (BitVec.eq_of_toNat_eq h0)
      · exact .inr (BitVec.eq_of_toNat_eq h1)
    · rintro (hz | hz) <;> subst hz <;> decide
  rw [h, h]
  simp only [List.mem_cons, Prod.mk.injEq, List.not_mem_nil, or_false]
  constructor
  · rintro (⟨hx, hy⟩ | ⟨hx, hy⟩ | ⟨hx, hy⟩ | ⟨hx, hy⟩) <;> subst hx <;> subst hy <;> simp
  · rintro ⟨hx | hx, hy | hy⟩ <;> subst hx <;> subst hy <;> simp

theorem witness_WholeImagePacks1 :
    bits10x3.Inv ∧ len1 (2 : Coord).toNat (2 : Coord).toNat ≤ bits10x3.bufBytes ∧
      ∀ x y : Coord, (x, y) ∈ ([(1, 1), (0, 0), (0, 1), (1, 0)] : List (Coord × Coord)) ↔
        x.toNat < (2 : Coord).toNat ∧ y.toNat < (2 : Coord).toNat :=
  ⟨inv_bits10x3, by decide, order_covers_2x2⟩

theorem witness_WholeImagePacks2 :
    gray1x5.Inv ∧ len2 (2 : Coord).toNat (2 : Coord).toNat ≤ gray1x5.bufBytes ∧
      ∀ x y : Coord, (x, y) ∈ ([(1, 1), (0, 0), (0, 1), (1, 0)] : List (Coord × Coord)) ↔
        x.toNat < (2 : Coord).toNat ∧ y.toNat < (2 : Coord).toNat :=
  ⟨inv_gray1x5, by decide, order_covers_2x2⟩

end Sys2Proof.Machine.Tests
end

section
/-! The step rule for a word that decodes to a command (00_scope.md R4, 20_memory.md R38), and the same
for a word given as the opcode table numbers its bits. -/

namespace Sys2Proof

theorem decodeTableWord_eq_some_iff {nbits w : Nat} {i : Instr} :
    decodeTableWord nbits w = some i ↔ decode (tableWord nbits w) = .ok i := by
  unfold decodeTableWord
  cases decode (tableWord nbits w) with
  | ok j => simp
  | error e => simp

end Sys2Proof

namespace Sys2Proof.Machine

theorem step_of_decode_ok {s : State} {w : CmdWord} {rest : List HostEvent} {i : Instr}
    (hp : s.pending = .command w :: rest) (hd : decode w = .ok i) :
    step s = exec i { s with pending := rest } := by
  simp only [step, hp, hd]

@[simp] theorem withFetchWord_pending (s : State) (nbits w : Nat) :
    (s.withFetchWord nbits w).pending = .command (tableWord nbits w) :: s.pending := rfl

/-- Settles O7, by the step rule for a word that decodes; taking the word of `withFetchWord` from the
port gives back the state it was presented in. -/
theorem stepRunsDecodedCommand : Obligations.StepRunsDecodedCommand := by
  unfold Obligations.StepRunsDecodedCommand
  refine ⟨fun s w rest i hp hd => step_of_decode_ok hp hd, fun s nbits w i hd => ?_⟩
  exact step_of_decode_ok (withFetchWord_pending s nbits w) (decodeTableWord_eq_some_iff.mp hd)

end Sys2Proof.Machine
end

section
/-! ### The step in each of its cases

A word that the host presents, legal or not, has one of the effects of `CommandEffect`; a reset resets
the block. What every step keeps is then shown per effect. -/

namespace Sys2Proof.Machine

theorem step_of_decode_error {s : State} {w : CmdWord} {rest : List HostEvent} {e : DecodeError}
    (hp : s.pending = .command w :: rest) (hd : decode w = .error e) :
    step s = .next (raise .eOp { s with pending := rest }) := by
  cases e
  simp only [step, hp, hd, rejectWord]

theorem step_of_reset {s : State} {rest : List HostEvent} (hp : s.pending = .reset :: rest) :
    step s = .next { s with pending := rest }.resetBlock := by
  simp only [step, hp]

/-- Everything a presented word can do when the step goes on. -/
theorem step_word_effect {s t : State} {w : CmdWord} {rest : List HostEvent}
    (hp : s.pending = .command w :: rest) (h : step s = .next t) :
    CommandEffect { s with pending := rest } t := by
  cases hd : decode w with
  | ok i => exact exec_effect (step_of_decode_ok hp hd ▸ h)
  | error e =>
    rw [step_of_decode_error hp hd] at h
    exact .inl ⟨_, (Host.Outcome.next.inj h).symm⟩

/-- Everything a step can do when it goes on: wait, reset the block, or deal with a word. -/
theorem step_effect {s t : State} (h : step s = .next t) :
    t = s ∨
    (∃ rest, s.pending = .reset :: rest ∧ t = { s with pending := rest }.resetBlock) ∨
    (∃ w rest, s.pending = .command w :: rest ∧ CommandEffect { s with pending := rest } t) := by
  rcases step_cases h with ⟨-, ht⟩ | hr | ⟨w, rest, i, hp, -, hi⟩ | ⟨w, rest, e, hp, -, ht⟩
  · exact .inl ht
  · exact .inr (.inl hr)
  · exact .inr (.inr ⟨w, rest, hp, exec_effect hi⟩)
  · exact .inr (.inr ⟨w, rest, hp, .inl ⟨_, ht⟩⟩)

theorem CommandEffect.bufBytes_eq {s t : State} (h : CommandEffect s t) :
    t.bufBytes = s.bufBytes := by
  rcases h with ⟨e, rfl⟩ | ⟨v, rfl⟩ | ⟨v, j, b, b', -, rfl⟩ | ⟨v, f, w, h', -, rfl⟩ <;> rfl

/-- Settles O51: neither a wait, nor a reset, nor any effect of a word touches the capacity. -/
theorem capacityIsConstant : Obligations.CapacityIsConstant := by
  intro s t h
  rcases step_effect h with rfl | ⟨rest, -, rfl⟩ | ⟨w, rest, -, hc⟩
  · rfl
  · rfl
  · exact hc.bufBytes_eq

end Sys2Proof.Machine
end

section
/-! ### The invariant of the state (10_state.md R19) -/

namespace Sys2Proof.Machine

/-- The invariant speaks of the capacity, `LEN` and `BUF` alone. -/
theorem State.Inv.congr {s t : State} (hs : s.Inv) (hc : t.bufBytes = s.bufBytes)
    (hl : t.len = s.len) (hb : t.buf = s.buf) : t.Inv where
  capacity_min := hc ▸ hs.capacity_min
  capacity_max := hc ▸ hs.capacity_max
  len_le := by rw [hl, hc]; exact hs.len_le
  buf_wf := hb ▸ hs.buf_wf
  buf_bound := by rw [hl, hb]; exact hs.buf_bound

theorem State.Inv.pending {s : State} (hs : s.Inv) (p : List HostEvent) :
    { s with pending := p }.Inv := hs.congr rfl rfl rfl

theorem State.Inv.respond {s : State} (hs : s.Inv) (v : Data) : (respond v s).Inv :=
  hs.congr rfl rfl rfl

theorem State.Inv.raise {s : State} (hs : s.Inv) (e : CmdError) : (raise e s).Inv :=
  hs.congr rfl rfl rfl

/-- A byte is written only at an index that exists, so the new cell is below `LEN` as well. -/
theorem State.Inv.setByte {s : State} (hs : s.Inv) {i : Nat} {b : Byte} (hb : s.byteAt i = some b)
    (b' : Byte) : (s.setByte i b').Inv where
  capacity_min := hs.capacity_min
  capacity_max := hs.capacity_max
  len_le := hs.len_le
  buf_wf := Memory.wf_set hs.buf_wf i b'
  buf_bound c hc := by
    obtain ⟨⟨hi, -⟩, -⟩ := byteAt_eq_some.1 hb
    rcases Memory.mem_set hc with hci | hc
    · exact hci ▸ hi
    · exact hs.buf_bound c hc

/-- A state with an empty list of cells needs no more than a buffer that fits. -/
theorem inv_of_buf_nil {s : State} (hmin : Config.minBufBytes ≤ s.bufBytes)
    (hmax : s.bufBytes ≤ Config.maxBufBytes) (hlen : s.len ≤ s.bufBytes) (hb : s.buf = []) :
    s.Inv :=
  ⟨hmin, hmax, hlen, hb ▸ Memory.wf_nil, by simp [hb]⟩

theorem State.Inv.beginBuffer {s : State} (hs : s.Inv) {f : Format} {w h : Coord}
    (hn : lenOf f w h ≤ s.bufBytes) : (s.beginBuffer f w h).Inv :=
  inv_of_buf_nil hs.capacity_min hs.capacity_max hn rfl

theorem State.Inv.resetBlock {s : State} (hs : s.Inv) : s.resetBlock.Inv :=
  inv_of_buf_nil hs.capacity_min hs.capacity_max (by simp) rfl

theorem CommandEffect.inv {s t : State} (h : CommandEffect s t) (hs : s.Inv) : t.Inv := by
  rcases h with ⟨e, rfl⟩ | ⟨v, rfl⟩ | ⟨v, j, b, b', hb, rfl⟩ | ⟨v, f, w, h', hn, rfl⟩
  · exact hs.raise e
  · exact hs.respond v
  · exact (hs.setByte hb b').respond v
  · exact (hs.beginBuffer hn).respond v

/-- Settles O47: a wait, a reset and every effect of a word keep the invariant. -/
theorem stepKeepsInvariant : Obligations.StepKeepsInvariant := by
  intro s t hs h
  rcases step_effect h with rfl | ⟨rest, -, rfl⟩ | ⟨w, rest, -, hc⟩
  · exact hs
  · exact (hs.pending rest).resetBlock
  · exact hc.inv (hs.pending rest)

theorem inv_reset : State.reset.Inv :=
  inv_of_buf_nil (by decide) (by decide) (by decide) rfl

/-- Settles O45: no byte exists after reset, so no padding bit does. -/
theorem resetMeetsInvariant : Obligations.ResetMeetsInvariant := by
  refine ⟨inv_reset, fun i t k ht _ _ => ?_⟩
  have hnone : State.reset.byteAt i = none := byteAt_of_len_le (Nat.zero_le i)
  rw [hnone] at ht
  cases ht

end Sys2Proof.Machine
end

section
/-! ### `ERR` and the responses (60_exceptions.md R142, R145, R146) -/

namespace Sys2Proof.Machine

theorem errO_eq_true_iff {s : State} : s.errO = true ↔ s.err ≠ 0 := bne_iff_ne

/-- A word succeeds and leaves `ERR`, or raises one error and sets its bit. -/
theorem CommandEffect.response_err {s t : State} (h : CommandEffect s t) :
    ((∃ v, t.responses = s.responses ++ [⟨.ok, v⟩]) ∧ t.err = s.err) ∨
    ∃ e : CmdError, t.responses = s.responses ++ [⟨.err e, 0⟩] ∧ t.err = s.err ||| e.bit := by
  rcases h with ⟨e, rfl⟩ | ⟨v, rfl⟩ | ⟨v, j, b, b', -, rfl⟩ | ⟨v, f, w, h', -, rfl⟩
  · exact .inr ⟨e, rfl, rfl⟩
  · exact .inl ⟨⟨v, rfl⟩, rfl⟩
  · exact .inl ⟨⟨v, rfl⟩, rfl⟩
  · exact .inl ⟨⟨v, rfl⟩, rfl⟩

theorem CommandEffect.exists_response {s t : State} (h : CommandEffect s t) :
    ∃ r, t.responses = s.responses ++ [r] := by
  rcases h.response_err with ⟨⟨v, hv⟩, -⟩ | ⟨e, he, -⟩
  · exact ⟨_, hv⟩
  · exact ⟨_, he⟩

/-- No word clears a bit of `ERR`. -/
theorem CommandEffect.err_and_eq {s t : State} (h : CommandEffect s t) :
    s.err &&& t.err = s.err := by
  rcases h.response_err with ⟨-, herr⟩ | ⟨e, -, herr⟩
  · rw [herr, BitVec.and_self]
  · rw [herr]; ext k hk; simp +contextual

/-- Where no bit of `ERR` falls, `err_o` does not fall. -/
theorem errO_of_err_and_eq {s t : State} (hand : s.err &&& t.err = s.err) (hs : s.errO = true) :
    t.errO = true := by
  rw [errO_eq_true_iff] at hs ⊢
  intro ht
  rw [ht] at hand
  exact hs (hand.symm.trans BitVec.and_zero)

/-- Settles O39, from what a word does to `ERR` and to the responses. -/
theorem errIsStickyUntilReset : Obligations.ErrIsStickyUntilReset := by
  refine ⟨fun s => errO_eq_true_iff, ?_, ?_, ?_⟩
  · intro s t w rest hp h
    rcases (step_word_effect hp h).response_err with hok | ⟨e, hresp, herr⟩
    · exact .inl hok
    · exact .inr ⟨e, hresp, by rw [herr]; cases e <;> rfl⟩
  · intro s t hreset h
    have hand : s.err &&& t.err = s.err := by
      rcases step_effect h with rfl | ⟨rest, hp, -⟩ | ⟨w, rest, -, hc⟩
      · exact BitVec.and_self
      · exact absurd hp (hreset rest)
      · exact hc.err_and_eq
    exact ⟨hand, errO_of_err_and_eq hand⟩
  · intro s rest hp
    exact ⟨_, step_of_reset hp, rfl, rfl⟩

end Sys2Proof.Machine
end

section
/-! ### What a command leaves: the geometry and the bytes of `BUF` -/

namespace Sys2Proof.Machine

/-- A command that may not write `BUF` raises an error or answers a value, and does nothing else. -/
theorem exec_of_not_mayWriteBuf {i : Instr} {s t : State} (hi : mayWriteBuf i = false)
    (h : exec i s = .next t) : (∃ e, t = raise e s) ∨ ∃ v, t = respond v s := by
  cases i with
  | nop | lum _ | quant1 _ | quant2 _ => exact .inr ⟨_, (Host.Outcome.next.inj h).symm⟩
  | start1 _ _ | start2 _ _ | put1 _ _ _ | put2 _ _ _ | pix1 _ _ _ | pix2 _ _ _ => cases hi
  | rdbuf d =>
    rcases execRdbuf_cases h with ⟨-, ht⟩ | ⟨b, -, ht⟩
    · exact .inl ⟨_, ht⟩
    · exact .inr ⟨_, ht⟩
  | rdreg n =>
    rcases execRdreg_cases h with ⟨v, -, ht⟩ | ⟨-, ht⟩
    · exact .inr ⟨_, ht⟩
    · exact .inl ⟨_, ht⟩

/-- Settles O41: raising and answering leave `BUF`. -/
theorem onlyPackersWriteBuf : Obligations.OnlyPackersWriteBuf := by
  intro i s t hi h j
  rcases exec_of_not_mayWriteBuf hi h with ⟨e, rfl⟩ | ⟨v, rfl⟩
  · exact raise_byteAt s e j
  · exact respond_byteAt s v j

/-- `t` has the format, the width and the height of `s`. -/
def SameGeometry (s t : State) : Prop := t.fmt = s.fmt ∧ t.w = s.w ∧ t.h = s.h

theorem sameGeometry_of_not_mayWriteBuf {i : Instr} {s t : State} (hi : mayWriteBuf i = false)
    (h : exec i s = .next t) : SameGeometry s t := by
  rcases exec_of_not_mayWriteBuf hi h with ⟨e, rfl⟩ | ⟨v, rfl⟩ <;> exact ⟨rfl, rfl, rfl⟩

theorem PixelWrite.sameGeometry {f : Format} {x y : Coord} {i : Nat} {change : Byte → Byte}
    {v : Data} {s t : State} (h : PixelWrite f x y i change v s t) : SameGeometry s t := by
  rcases h with ⟨-, rfl⟩ | ⟨-, -, rfl⟩ | ⟨-, -, b, -, rfl⟩ <;> exact ⟨rfl, rfl, rfl⟩

/-- A command leaves the geometry, or it is a START and the geometry is its format and operands. -/
theorem exec_geometry {i : Instr} {s t : State} (h : exec i s = .next t) :
    SameGeometry s t ∨
    (∃ a b : Coord, i = .start1 a b ∧ t.fmt = .oneBit ∧ t.w = a ∧ t.h = b) ∨
    (∃ a b : Coord, i = .start2 a b ∧ t.fmt = .twoBit ∧ t.w = a ∧ t.h = b) := by
  cases i with
  | start1 a b =>
    rcases execStart1_cases h with ⟨-, rfl⟩ | ⟨-, rfl⟩
    · exact .inl ⟨rfl, rfl, rfl⟩
    · exact .inr (.inl ⟨a, b, rfl, rfl, rfl, rfl⟩)
  | start2 a b =>
    rcases execStart2_cases h with ⟨-, rfl⟩ | ⟨-, rfl⟩
    · exact .inl ⟨rfl, rfl, rfl⟩
    · exact .inr (.inr ⟨a, b, rfl, rfl, rfl, rfl⟩)
  | put1 x y v => exact .inl (execPut1_cases h).sameGeometry
  | put2 x y g => exact .inl (execPut2_cases h).sameGeometry
  | pix1 x y p => exact .inl (execPix1_cases h).sameGeometry
  | pix2 x y p => exact .inl (execPix2_cases h).sameGeometry
  | nop | lum _ | quant1 _ | quant2 _ | rdbuf _ | rdreg _ =>
    exact .inl (sameGeometry_of_not_mayWriteBuf rfl h)

/-- Settles O40: a word that is no command raises `E_OP`, and `exec_geometry` says the rest. -/
theorem onlyStartWritesGeometry : Obligations.OnlyStartWritesGeometry := by
  refine ⟨fun s t w rest hp h => ?_, fun s t rest hp h => ?_⟩
  · cases hd : decode w with
    | ok i =>
      rw [step_of_decode_ok hp hd] at h
      simpa only [Except.ok.injEq, SameGeometry] using exec_geometry h
    | error e =>
      rw [step_of_decode_error hp hd] at h
      cases h
      exact .inl ⟨rfl, rfl, rfl⟩
  · rw [step_of_reset hp] at h
    cases h
    exact ⟨rfl, rfl, rfl⟩

end Sys2Proof.Machine
end

section
/-! ### The derived registers (10_state.md R15, R16) -/

namespace Sys2Proof.Machine

theorem stride_le {w : Nat} (hw : w ≤ 65535) : stride w ≤ 8192 := by
  unfold stride; omega

theorem bpc_le {h : Nat} (hh : h ≤ 65535) : bpc h ≤ 16384 := by
  unfold bpc; split <;> omega

theorem len1_le {w h : Nat} (hw : w ≤ 65535) (hh : h ≤ 65535) : len1 w h ≤ 536862720 :=
  Nat.mul_le_mul (stride_le hw) hh

theorem len2_le {w h : Nat} (hw : w ≤ 65535) (hh : h ≤ 65535) : len2 w h ≤ 1073725440 :=
  Nat.mul_le_mul hw (bpc_le hh)

theorem coord_le (c : Coord) : c.toNat ≤ 65535 := Nat.le_of_lt_succ c.isLt

theorem len_of_oneBit {s : State} (hf : s.fmt = .oneBit) : s.len = len1 s.w.toNat s.h.toNat := by
  rw [State.len, hf, lenOf]

theorem len_of_twoBit {s : State} (hf : s.fmt = .twoBit) : s.len = len2 s.w.toNat s.h.toNat := by
  rw [State.len, hf, lenOf]

theorem pitch_of_oneBit {s : State} (hf : s.fmt = .oneBit) : s.pitch = stride s.w.toNat := by
  rw [State.pitch, hf]

theorem pitch_of_twoBit {s : State} (hf : s.fmt = .twoBit) : s.pitch = bpc s.h.toNat := by
  rw [State.pitch, hf]

/-- `PITCH` and `LEN` of a 1-bit buffer are at most what the largest image needs. -/
theorem pitch_len_le_of_oneBit {s : State} (hf : s.fmt = .oneBit) :
    s.pitch ≤ 8192 ∧ s.len ≤ 536862720 := by
  rw [pitch_of_oneBit hf, len_of_oneBit hf]
  exact ⟨stride_le (coord_le _), len1_le (coord_le _) (coord_le _)⟩

/-- In either format they are at most what the largest 2-bit image needs. -/
theorem pitch_len_le (s : State) : s.pitch ≤ 16384 ∧ s.len ≤ 1073725440 := by
  cases hf : s.fmt with
  | oneBit =>
    obtain ⟨hp, hl⟩ := pitch_len_le_of_oneBit hf
    exact ⟨hp.trans (by decide), hl.trans (by decide)⟩
  | twoBit =>
    rw [pitch_of_twoBit hf, len_of_twoBit hf]
    exact ⟨bpc_le (coord_le _), len2_le (coord_le _) (coord_le _)⟩

/-- Settles O42, from the bounds on stride and column length at the largest coordinate. -/
theorem derivedRegistersFit : Obligations.DerivedRegistersFit := by
  refine ⟨fun s => ?_, rfl, rfl, rfl, rfl, rfl, rfl⟩
  obtain ⟨hp, hl⟩ := pitch_len_le s
  exact ⟨rfl, rfl, hp, hl, Nat.mod_eq_of_lt (by omega), Nat.mod_eq_of_lt (by omega),
    pitch_len_le_of_oneBit⟩

end Sys2Proof.Machine
end

section
/-! ### Read-out, by its conditions -/

namespace Sys2Proof.Machine

theorem execRdbuf_of_len_le {i : Data} {s : State} (h : s.len ≤ i.toNat) :
    exec (.rdbuf i) s = .next (raise .eRange s) := if_pos h

theorem execRdbuf_of_byteAt {i : Data} {s : State} {b : Byte} (h : s.byteAt i.toNat = some b) :
    exec (.rdbuf i) s = .next (respond (b.zeroExtend 32) s) := by
  obtain ⟨⟨hi, -⟩, -⟩ := byteAt_eq_some.1 h
  change execRdbuf i s = _
  rw [execRdbuf, if_neg (by omega), memRead_eq h]

theorem execRdreg_of_some {n : Coord} {s : State} {v : Data} (h : s.register n.toNat = some v) :
    exec (.rdreg n) s = .next (respond v s) := by
  change execRdreg n s = _
  rw [execRdreg, h]

theorem execRdreg_of_none {n : Coord} {s : State} (h : s.register n.toNat = none) :
    exec (.rdreg n) s = .next (raise .eOp s) := by
  change execRdreg n s = _
  rw [execRdreg, h]

end Sys2Proof.Machine
end

section
/-! ### A command sees nothing of the port (10_state.md R24)

`PortFree f s` is what the claim says of one operation from one state; it is shown for each shared
operation, and the commands are built from those. -/

namespace Sys2Proof.Machine

/-- The state with other things pending and other responses given before. -/
def State.withPort (s : State) (p : List HostEvent) (r : List Response) : State :=
  { s with pending := p, responses := r }

/-- Where the operation goes on, it adds one response and leaves what is pending, and it does the same
whatever stands at the port. -/
def PortFree (f : State → Result) (s : State) : Prop :=
  ∀ t p r, f s = .next t →
    ∃ a : Response, t.responses = s.responses ++ [a] ∧ t.pending = s.pending ∧
      f (s.withPort p r) = .next (t.withPort p (r ++ [a]))

theorem modifyByte_portFree (i : Nat) (change : Byte → Byte) (v : Data) (s : State) :
    PortFree (modifyByte i change v) s := by
  intro t p r h
  obtain ⟨b, hb, rfl⟩ := modifyByte_cases h
  exact ⟨⟨.ok, v⟩, rfl, rfl, modifyByte_eq (s := s.withPort p r) hb⟩

theorem guarded_portFree {f : Format} {x y : Coord} {write : State → Result} {s : State}
    (hw : PortFree write s) : PortFree (guarded f x y write) s := by
  intro t p r h
  rcases guarded_cases h with ⟨hf, rfl⟩ | ⟨hf, hr, rfl⟩ | ⟨hf, hr, h⟩
  · exact ⟨⟨.err .eFmt, 0⟩, rfl, rfl, guarded_fmt (s := s.withPort p r) hf⟩
  · exact ⟨⟨.err .eRange, 0⟩, rfl, rfl, guarded_range (s := s.withPort p r) hf hr⟩
  · rw [guarded_ok (s := s.withPort p r) hf hr]
    exact hw t p r h

theorem startBuffer_portFree (f : Format) (w h : Coord) (n : Nat) (s : State) :
    PortFree (startBuffer f w h n) s := by
  intro t p r hs
  rcases startBuffer_cases hs with ⟨hn, rfl⟩ | ⟨hn, rfl⟩
  · exact ⟨⟨.err .eSize, 0⟩, rfl, rfl, startBuffer_tooLarge (s := s.withPort p r) hn⟩
  · exact ⟨⟨.ok, _⟩, rfl, rfl, startBuffer_fits (s := s.withPort p r) hn⟩

theorem writeLevel1_portFree (x y : Coord) (v : BinaryLevel) (rsp : Data) (s : State) :
    PortFree (writeLevel1 x y v rsp) s := modifyByte_portFree _ _ _ s

theorem writeLevel2_portFree (x y : Coord) (g : GrayLevel) (rsp : Data) (s : State) :
    PortFree (writeLevel2 x y g rsp) s := modifyByte_portFree _ _ _ s

theorem respond_portFree (v : Data) (s : State) : PortFree (fun s => .next (respond v s)) s := by
  intro t p r h
  cases h
  exact ⟨⟨.ok, v⟩, rfl, rfl, rfl⟩

theorem execRdbuf_portFree (i : Data) (s : State) : PortFree (exec (.rdbuf i)) s := by
  intro t p r h
  rcases execRdbuf_cases h with ⟨hlen, rfl⟩ | ⟨b, hb, rfl⟩
  · exact ⟨⟨.err .eRange, 0⟩, rfl, rfl, execRdbuf_of_len_le (s := s.withPort p r) hlen⟩
  · exact ⟨⟨.ok, _⟩, rfl, rfl, execRdbuf_of_byteAt (s := s.withPort p r) hb⟩

theorem execRdreg_portFree (n : Coord) (s : State) : PortFree (exec (.rdreg n)) s := by
  intro t p r h
  rcases execRdreg_cases h with ⟨v, hv, rfl⟩ | ⟨hv, rfl⟩
  · exact ⟨⟨.ok, v⟩, rfl, rfl, execRdreg_of_some (s := s.withPort p r) hv⟩
  · exact ⟨⟨.err .eOp, 0⟩, rfl, rfl, execRdreg_of_none (s := s.withPort p r) hv⟩

theorem exec_portFree (i : Instr) (s : State) : PortFree (exec i) s := by
  cases i with
  | nop | lum _ | quant1 _ | quant2 _ => exact respond_portFree _ s
  | start1 w h | start2 w h => exact startBuffer_portFree _ w h _ s
  | put1 x y v => exact guarded_portFree (writeLevel1_portFree x y v 0 s)
  | put2 x y g => exact guarded_portFree (writeLevel2_portFree x y g 0 s)
  | pix1 x y p => exact guarded_portFree (writeLevel1_portFree x y _ _ s)
  | pix2 x y p => exact guarded_portFree (writeLevel2_portFree x y _ _ s)
  | rdbuf d => exact execRdbuf_portFree d s
  | rdreg n => exact execRdreg_portFree n s

/-- Settles O50, operation by operation. -/
theorem commandsHaveNoHiddenInput : Obligations.CommandsHaveNoHiddenInput :=
  fun i s t p r h => exec_portFree i s t p r h

end Sys2Proof.Machine
end

section
/-! ### A command goes on in every state of the invariant

The byte of a pixel of the image is below `LEN`, so no access to `BUF` stops. -/

namespace Sys2Proof.Machine

theorem byte1_lt_len1 {x y w h : Nat} (hx : x < w) (hy : y < h) : byte1 x y w < len1 w h := by
  have hcol : x / 8 < stride w := by unfold stride; omega
  calc y * stride w + x / 8 < y * stride w + stride w := by omega
    _ = stride w * (y + 1) := by ring
    _ ≤ stride w * h := Nat.mul_le_mul_left _ hy

theorem colbyte_lt_bpc {y h : Nat} (hy : y < h) : colbyte y < bpc h := by
  unfold colbyte bpc; rw [if_neg (by omega)]; omega

theorem byte2_lt_len2 {x y w h : Nat} (hx : x < w) (hy : y < h) : byte2 x y h < len2 w h := by
  have hrow := colbyte_lt_bpc hy
  calc x * bpc h + colbyte y < x * bpc h + bpc h := by omega
    _ = (x + 1) * bpc h := by ring
    _ ≤ w * bpc h := Nat.mul_le_mul_right _ hx

/-- Every index below `LEN` has a byte (10_state.md R19). -/
theorem State.Inv.byteAt_of_lt_len {s : State} (hs : s.Inv) {i : Nat} (hi : i < s.len) :
    s.byteAt i = some (s.buf.get i) := byteAt_of_lt hi (hi.trans_le hs.len_le)

theorem modifyByte_goes_on {s : State} (hs : s.Inv) {i : Nat} (hi : i < s.len)
    (change : Byte → Byte) (v : Data) : ∃ t, modifyByte i change v s = .next t :=
  ⟨_, modifyByte_eq (hs.byteAt_of_lt_len hi)⟩

theorem guarded_goes_on {f : Format} {x y : Coord} {write : State → Result} {s : State}
    (hw : s.fmt = f → s.inImage x y → ∃ t, write s = .next t) :
    ∃ t, guarded f x y write s = .next t := by
  by_cases hf : s.fmt = f
  · by_cases hr : s.inImage x y
    · rw [guarded_ok hf hr]; exact hw hf hr
    · exact ⟨_, guarded_range hf hr⟩
  · exact ⟨_, guarded_fmt hf⟩

theorem guarded_writeLevel1_goes_on {s : State} (hs : s.Inv) (x y : Coord) (v : BinaryLevel)
    (rsp : Data) : ∃ t, guarded .oneBit x y (writeLevel1 x y v rsp) s = .next t :=
  guarded_goes_on fun hf ⟨hx, hy⟩ =>
    modifyByte_goes_on hs (len_of_oneBit hf ▸ byte1_lt_len1 hx hy) _ _

theorem guarded_writeLevel2_goes_on {s : State} (hs : s.Inv) (x y : Coord) (g : GrayLevel)
    (rsp : Data) : ∃ t, guarded .twoBit x y (writeLevel2 x y g rsp) s = .next t :=
  guarded_goes_on fun hf ⟨hx, hy⟩ =>
    modifyByte_goes_on hs (len_of_twoBit hf ▸ byte2_lt_len2 hx hy) _ _

theorem startBuffer_goes_on (f : Format) (w h : Coord) (n : Nat) (s : State) :
    ∃ t, startBuffer f w h n s = .next t := by
  by_cases hn : s.bufBytes < n
  · exact ⟨_, startBuffer_tooLarge hn⟩
  · exact ⟨_, startBuffer_fits (not_lt.1 hn)⟩

theorem execRdbuf_goes_on {s : State} (hs : s.Inv) (i : Data) :
    ∃ t, exec (.rdbuf i) s = .next t := by
  by_cases hi : s.len ≤ i.toNat
  · exact ⟨_, execRdbuf_of_len_le hi⟩
  · exact ⟨_, execRdbuf_of_byteAt (hs.byteAt_of_lt_len (not_le.1 hi))⟩

theorem execRdreg_goes_on (n : Coord) (s : State) : ∃ t, exec (.rdreg n) s = .next t := by
  cases hv : s.register n.toNat with
  | none => exact ⟨_, execRdreg_of_none hv⟩
  | some v => exact ⟨_, execRdreg_of_some hv⟩

/-- No command stops in a state that meets the invariant. -/
theorem exec_goes_on {s : State} (hs : s.Inv) (i : Instr) : ∃ t, exec i s = .next t := by
  cases i with
  | nop | lum _ | quant1 _ | quant2 _ => exact ⟨_, rfl⟩
  | start1 w h | start2 w h => exact startBuffer_goes_on _ w h _ s
  | put1 x y v => exact guarded_writeLevel1_goes_on hs x y v 0
  | put2 x y g => exact guarded_writeLevel2_goes_on hs x y g 0
  | pix1 x y p => exact guarded_writeLevel1_goes_on hs x y _ _
  | pix2 x y p => exact guarded_writeLevel2_goes_on hs x y _ _
  | rdbuf d => exact execRdbuf_goes_on hs d
  | rdreg n => exact execRdreg_goes_on n s

/-- A word presented in a state of the invariant is taken, and answered once. -/
theorem step_word_answers_once {s : State} {w : CmdWord} {rest : List HostEvent} (hs : s.Inv)
    (hp : s.pending = .command w :: rest) :
    ∃ t r, step s = .next t ∧ t.responses = s.responses ++ [r] := by
  have hstep : ∃ t, step s = .next t := by
    cases hd : decode w with
    | ok i => rw [step_of_decode_ok hp hd]; exact exec_goes_on (hs.pending rest) i
    | error e => exact ⟨_, step_of_decode_error hp hd⟩
  obtain ⟨t, ht⟩ := hstep
  obtain ⟨r, hr⟩ := (step_word_effect hp ht).exists_response
  exact ⟨t, r, ht, hr⟩

/-- Settles O43: the registers by their values; `LEN` is 0, so every index is out of range; and a word
presented next is answered because the state after reset meets the invariant. -/
theorem resetStateValues : Obligations.ResetStateValues := by
  refine ⟨rfl, rfl, rfl, rfl, rfl, rfl, rfl, rfl, fun i => ?_, fun w => ?_⟩
  · have hlen : State.reset.len ≤ i.toNat := Nat.zero_le _
    exact execRdbuf_of_len_le hlen
  · exact step_word_answers_once (inv_reset.pending _) rfl

end Sys2Proof.Machine
end

section
/-! ### A level inside a byte (41_packer_1bit.md R95, 42_packer_2bit.md R115)

`putBit` and `putSlot` are one operation at two widths, and so are `getBit` and `getSlot`; it is reasoned
about once, for a level of `n` bits at the bit offset `k`. The model's own operations are `putLevel` by
unfolding, as `putBit_eq_putLevel` and `putSlot_eq_putLevel` say. -/

namespace Sys2Proof.Machine

/-- Replace the `n` bits of a byte from bit `k` up: clear them, then set them to `v`. -/
def putLevel {n : Nat} (t : Byte) (k : Nat) (v : BitVec n) : Byte :=
  (t &&& ~~~((BitVec.allOnes n).zeroExtend 8 <<< k)) ||| (v.zeroExtend 8 <<< k)

theorem putBit_eq_putLevel (t : Byte) (k : Nat) (v : BinaryLevel) :
    putBit t k v = putLevel t k v := rfl

theorem putSlot_eq_putLevel (t : Byte) (k : Nat) (g : GrayLevel) :
    putSlot t k g = putLevel t k g := rfl

/-- The bits of the level are those of `v`, every other bit is as before. -/
theorem getLsbD_putLevel {n : Nat} (t : Byte) (k : Nat) (v : BitVec n) {j : Nat} (hj : j < 8) :
    (putLevel t k v).getLsbD j =
      if k ≤ j ∧ j < k + n then v.getLsbD (j - k) else t.getLsbD j := by
  have hlt : j - k < 8 := by omega
  simp only [putLevel, BitVec.getLsbD_or, BitVec.getLsbD_and, BitVec.getLsbD_not,
    BitVec.getLsbD_shiftLeft, BitVec.zeroExtend, BitVec.getLsbD_setWidth, BitVec.getLsbD_allOnes,
    hj, hlt, decide_true, Bool.true_and]
  by_cases hk : j < k
  · rw [if_neg (by omega)]
    simp [hk]
  · by_cases hn : j - k < n
    · rw [if_pos (by omega)]
      simp [hk, hn]
    · rw [if_neg (by omega), BitVec.getLsbD_of_ge v _ (by omega)]
      simp [hn]

/-- What was put is read back. -/
theorem extractLsb'_putLevel_same {n : Nat} (t : Byte) {k : Nat} (v : BitVec n) (hk : k + n ≤ 8) :
    (putLevel t k v).extractLsb' k n = v := by
  refine BitVec.eq_of_getLsbD_eq fun m hm => ?_
  rw [BitVec.getLsbD_extractLsb', getLsbD_putLevel t k v (by omega), if_pos (by omega)]
  simp [hm]

/-- A level in other bits is read as before. -/
theorem extractLsb'_putLevel_disjoint {n : Nat} (t : Byte) {k k' : Nat} (v : BitVec n)
    (hk : k' + n ≤ 8) (hd : k + n ≤ k' ∨ k' + n ≤ k) :
    (putLevel t k v).extractLsb' k' n = t.extractLsb' k' n := by
  refine BitVec.eq_of_getLsbD_eq fun m hm => ?_
  rw [BitVec.getLsbD_extractLsb', BitVec.getLsbD_extractLsb', getLsbD_putLevel t k v (by omega),
    if_neg (by omega)]

end Sys2Proof.Machine
end

section
/-! ### Rows and columns are blocks of bytes (20_memory.md R31, R32, R41) -/

namespace Sys2Proof.Machine

theorem div_lt_stride {x w : Nat} (hx : x < w) : x / 8 < stride w := by
  unfold stride; omega

theorem colbyte_eq_div (y : Nat) : colbyte y = y / 4 := by
  unfold colbyte; omega

/-- The byte at place `a` of block `i`, in blocks of `n` bytes, is in that block. -/
theorem block_bounds {n a : Nat} (i : Nat) (ha : a < n) :
    i * n ≤ i * n + a ∧ i * n + a < (i + 1) * n := by
  rw [Nat.add_one_mul]; omega

theorem block_div {n a : Nat} (i : Nat) (ha : a < n) : (i * n + a) / n = i := by
  rw [Nat.add_comm, Nat.add_mul_div_right _ _ (by omega), Nat.div_eq_of_lt ha, Nat.zero_add]

/-- A byte determines its block and its place in the block. -/
theorem block_inj {n i j a b : Nat} (ha : a < n) (hb : b < n) (h : i * n + a = j * n + b) :
    i = j ∧ a = b := by
  have hij : i = j := by rw [← block_div i ha, h, block_div j hb]
  subst hij
  exact ⟨rfl, Nat.add_left_cancel h⟩

/-- Settles O26: byte `k` of a row holds the pixels with `x / 8 = k`, byte `k` of a column those with
`y / 4 = k`, and both quotients are less than the number of bytes of the block. -/
theorem rowsAndColumnsAreContiguous : Obligations.RowsAndColumnsAreContiguous := by
  refine ⟨fun x y w k _ _ => ?_, fun x y w hx => block_bounds y (div_lt_stride hx),
    fun x y h k _ _ => ?_, fun x y h hy => block_bounds x (colbyte_lt_bpc hy), fun n => ?_⟩
  · rw [byte1, Nat.add_left_cancel_iff]; omega
  · rw [byte2, Nat.add_left_cancel_iff, colbyte_eq_div]; omega
  · simp [byte1, bit1, byte2, colbyte, shift2, nshift]

end Sys2Proof.Machine
end

section
/-! ### The two formats as one

Where a pixel lies and how wide its level is, as functions of the format, so that what holds of both
packers is shown once; `f` is the format of the buffer throughout. At `.oneBit` and `.twoBit` they unfold
to the model's own functions (`level_oneBit`, `level_twoBit`). -/

namespace Sys2Proof.Machine

/-- The number of bits of a level (30_encoding.md R58). -/
def levelBits : Format → Nat
  | .oneBit => 1
  | .twoBit => 2

/-- A level of the format `f`. -/
abbrev Level (f : Format) : Type := BitVec (levelBits f)

/-- The byte of pixel (x, y) (R92, R112). -/
def pixelIndex (f : Format) (w h x y : Nat) : Nat :=
  match f with
  | .oneBit => byte1 x y w
  | .twoBit => byte2 x y h

/-- The lowest bit of pixel (x, y) in its byte (R92, R112). -/
def pixelOffset (f : Format) (x y : Nat) : Nat :=
  match f with
  | .oneBit => bit1 x
  | .twoBit => shift2 y

/-- The byte of pixel (x, y) in the buffer of `s`. -/
def State.indexOf (s : State) (f : Format) (x y : Coord) : Nat :=
  pixelIndex f s.w.toNat s.h.toNat x.toNat y.toNat

/-- The level the buffer holds for pixel (x, y). -/
def State.level (s : State) (f : Format) (x y : Coord) : Option (Level f) :=
  (s.byteAt (s.indexOf f x y)).map fun t =>
    t.extractLsb' (pixelOffset f x.toNat y.toNat) (levelBits f)

theorem level_oneBit (s : State) (x y : Coord) : s.level .oneBit x y = s.pixel1 x y := rfl

theorem level_twoBit (s : State) (x y : Coord) : s.level .twoBit x y = s.pixel2 x y := rfl

theorem pixelOffset_add_levelBits_le (f : Format) (x y : Nat) :
    pixelOffset f x y + levelBits f ≤ 8 := by
  cases f with
  | oneBit => simp only [pixelOffset, levelBits, bit1]; omega
  | twoBit => simp only [pixelOffset, levelBits, shift2]; omega

/-- The bits of a pixel are the `levelBits` bits from its offset up, in its byte. -/
theorem pixelHasBit_iff {f : Format} {w h x y i k : Nat} : pixelHasBit f w h x y i k ↔
    pixelIndex f w h x y = i ∧ pixelOffset f x y ≤ k ∧ k < pixelOffset f x y + levelBits f := by
  cases f with
  | oneBit => simp only [pixelHasBit, pixelIndex, pixelOffset, levelBits]; omega
  | twoBit => simp only [pixelHasBit, pixelIndex, pixelOffset, levelBits]; omega

/-- R42 (d): the byte of a pixel of the image exists. -/
theorem indexOf_lt_len {s : State} {f : Format} {x y : Coord} (hf : s.fmt = f)
    (hr : s.inImage x y) : s.indexOf f x y < s.len := by
  obtain ⟨hx, hy⟩ := hr
  cases f with
  | oneBit => rw [len_of_oneBit hf]; exact byte1_lt_len1 hx hy
  | twoBit => rw [len_of_twoBit hf]; exact byte2_lt_len2 hx hy

/-- R96: pixels of a row-major image in one byte are the same or have different bits. -/
theorem bit1_ne_of_byte1_eq {w x y x' y' : Nat} (hx : x < w) (hx' : x' < w)
    (h : byte1 x y w = byte1 x' y' w) : (x' = x ∧ y' = y) ∨ bit1 x ≠ bit1 x' := by
  obtain ⟨hy, hcol⟩ := block_inj (div_lt_stride hx) (div_lt_stride hx') h
  unfold bit1; omega

/-- R116: pixels of a column-major image in one byte are the same or have slots two or more bits
apart. -/
theorem shift2_apart_of_byte2_eq {h x y x' y' : Nat} (hy : y < h) (hy' : y' < h)
    (hb : byte2 x y h = byte2 x' y' h) :
    (x' = x ∧ y' = y) ∨ shift2 y + 2 ≤ shift2 y' ∨ shift2 y' + 2 ≤ shift2 y := by
  obtain ⟨hx, hrow⟩ := block_inj (colbyte_lt_bpc hy) (colbyte_lt_bpc hy') hb
  rw [colbyte_eq_div, colbyte_eq_div] at hrow
  unfold shift2 nshift; omega

/-- R42 (b): two different pixels of the image share no bit. -/
theorem pixelOffset_apart {f : Format} {w h x y x' y' : Nat} (hx : x < w) (hy : y < h)
    (hx' : x' < w) (hy' : y' < h) (hi : pixelIndex f w h x y = pixelIndex f w h x' y') :
    (x' = x ∧ y' = y) ∨ pixelOffset f x y + levelBits f ≤ pixelOffset f x' y' ∨
      pixelOffset f x' y' + levelBits f ≤ pixelOffset f x y := by
  cases f with
  | oneBit => exact (bit1_ne_of_byte1_eq hx hx' hi).imp id Nat.lt_or_gt_of_ne
  | twoBit => exact shift2_apart_of_byte2_eq hy hy' hi

end Sys2Proof.Machine
end

section
/-! ### Writing one level into the buffer (20_memory.md R37) -/

namespace Sys2Proof.Machine

/-- The buffer in which pixel (x, y) has the level `v`. -/
def State.withLevel (s : State) (f : Format) (x y : Coord) (v : Level f) : State :=
  s.setByte (s.indexOf f x y)
    (putLevel (s.buf.get (s.indexOf f x y)) (pixelOffset f x.toNat y.toNat) v)

/-- Bit `k` of byte `i` of the buffer, where there is one. -/
def State.bitAt (s : State) (i k : Nat) : Option Bool := (s.byteAt i).map (·.getLsbD k)

theorem bitAt_congr {s t : State} {i k : Nat} (h : t.byteAt i = s.byteAt i) :
    t.bitAt i k = s.bitAt i k := congrArg _ h

/-- Bytes of the same bits are the same. -/
theorem byteAt_eq_of_bitAt {s t : State} {i : Nat} (h : ∀ k, k < 8 → s.bitAt i k = t.bitAt i k) :
    s.byteAt i = t.byteAt i := by
  unfold State.bitAt at h
  cases hs : s.byteAt i with
  | none =>
    cases ht : t.byteAt i with
    | none => rfl
    | some c => simpa [hs, ht] using h 0 (by decide)
  | some b =>
    cases ht : t.byteAt i with
    | none => simpa [hs, ht] using h 0 (by decide)
    | some c =>
      have hbits : ∀ k, k < 8 → b.getLsbD k = c.getLsbD k := by simpa [hs, ht] using h
      rw [BitVec.eq_of_getLsbD_eq hbits]

/-- A bit of a pixel is a bit of the pixel's level. -/
theorem bitAt_of_pixelHasBit {s : State} {f : Format} {x y : Coord} {i k : Nat}
    (h : pixelHasBit f s.w.toNat s.h.toNat x.toNat y.toNat i k) :
    s.bitAt i k = (s.level f x y).map (·.getLsbD (k - pixelOffset f x.toNat y.toNat)) := by
  obtain ⟨hi, hle, hlt⟩ := pixelHasBit_iff.1 h
  have hm : k - pixelOffset f x.toNat y.toNat < levelBits f := by omega
  rw [State.level, State.indexOf, hi, State.bitAt, Option.map_map]
  congr 1
  funext t
  simp [hm, Nat.add_sub_cancel' hle]

section
variable {s : State} {f : Format} {x y : Coord} (hs : s.Inv) (hf : s.fmt = f)
  (hr : s.inImage x y)
include hs hf hr

theorem byteAt_indexOf :
    s.byteAt (s.indexOf f x y) = some (s.buf.get (s.indexOf f x y)) :=
  hs.byteAt_of_lt_len (indexOf_lt_len hf hr)

theorem inv_withLevel (v : Level f) : (s.withLevel f x y v).Inv :=
  hs.setByte (byteAt_indexOf hs hf hr) _

theorem withLevel_byteAt (v : Level f) (j : Nat) :
    (s.withLevel f x y v).byteAt j =
      if s.indexOf f x y = j then
        some (putLevel (s.buf.get (s.indexOf f x y)) (pixelOffset f x.toNat y.toNat) v)
      else s.byteAt j :=
  setByte_byteAt hs.buf_wf (byteAt_indexOf hs hf hr)

/-- The pixel written has the level, every other pixel of the image the level it had. -/
theorem withLevel_level (v : Level f) {x' y' : Coord} (hr' : s.inImage x' y') :
    (s.withLevel f x y v).level f x' y' = if x' = x ∧ y' = y then some v else s.level f x' y' := by
  have hidx : (s.withLevel f x y v).indexOf f x' y' = s.indexOf f x' y' := rfl
  rw [State.level, State.level, hidx, withLevel_byteAt hs hf hr]
  have hle := pixelOffset_add_levelBits_le f x'.toNat y'.toNat
  by_cases hi : s.indexOf f x y = s.indexOf f x' y'
  · rw [if_pos hi, hi, byteAt_indexOf hs hf hr', Option.map_some, Option.map_some]
    by_cases hxy : x' = x ∧ y' = y
    · obtain ⟨rfl, rfl⟩ := hxy
      rw [if_pos ⟨rfl, rfl⟩, extractLsb'_putLevel_same _ v hle]
    · have hne : ¬ (x'.toNat = x.toNat ∧ y'.toNat = y.toNat) := by
        rwa [BitVec.toNat_inj, BitVec.toNat_inj]
      have hd := (pixelOffset_apart hr.1 hr.2 hr'.1 hr'.2 hi).resolve_left hne
      rw [if_neg hxy, extractLsb'_putLevel_disjoint _ v hle hd]
  · have hxy : ¬ (x' = x ∧ y' = y) := by
      rintro ⟨rfl, rfl⟩
      exact hi rfl
    rw [if_neg hi, if_neg hxy]

/-- A bit that is not the pixel's is as before. -/
theorem withLevel_bitAt (v : Level f) {i k : Nat} (hk : k < 8)
    (hbit : ¬ pixelHasBit f s.w.toNat s.h.toNat x.toNat y.toNat i k) :
    (s.withLevel f x y v).bitAt i k = s.bitAt i k := by
  rw [State.bitAt, withLevel_byteAt hs hf hr]
  split
  · next hi =>
    have hout : ¬ (pixelOffset f x.toNat y.toNat ≤ k ∧
        k < pixelOffset f x.toNat y.toNat + levelBits f) :=
      fun hin => hbit (pixelHasBit_iff.2 ⟨hi, hin⟩)
    rw [Option.map_some, getLsbD_putLevel _ _ v hk, if_neg hout, State.bitAt, ← hi,
      byteAt_indexOf hs hf hr, Option.map_some]
  · rfl

end

/-- The command writes the level `v` at (x, y), in every state in which the pixel exists, and does
nothing else but answer. -/
def WritesLevel (f : Format) (i : Instr) (x y : Coord) (v : Level f) : Prop :=
  ∀ s : State, s.Inv → s.fmt = f → s.inImage x y →
    ∃ rsp, exec i s = .next (respond rsp (s.withLevel f x y v))

theorem put1_writesLevel (x y : Coord) (v : BinaryLevel) :
    WritesLevel .oneBit (.put1 x y v) x y v := fun _ hs hf hr =>
  ⟨0, (guarded_ok hf hr).trans (modifyByte_eq (byteAt_indexOf hs hf hr))⟩

theorem put2_writesLevel (x y : Coord) (g : GrayLevel) :
    WritesLevel .twoBit (.put2 x y g) x y g := fun _ hs hf hr =>
  ⟨0, (guarded_ok hf hr).trans (modifyByte_eq (byteAt_indexOf hs hf hr))⟩

/-- A command that writes a level changes one pixel. -/
theorem WritesLevel.changes_one_pixel {f : Format} {i : Instr} {x y : Coord} {v : Level f}
    (hi : WritesLevel f i x y v) {s : State} (hs : s.Inv) (hf : s.fmt = f) (hr : s.inImage x y) :
    ∃ t, exec i s = .next t ∧ ∀ x' y' : Coord, s.inImage x' y' →
      t.level f x' y' = if x' = x ∧ y' = y then some v else s.level f x' y' := by
  obtain ⟨rsp, h⟩ := hi s hs hf hr
  exact ⟨_, h, fun x' y' hr' => withLevel_level hs hf hr v hr'⟩

/-- Settles O21, as a write of a level in the 1-bit format. -/
theorem put1ChangesOnePixel : Obligations.Put1ChangesOnePixel := fun x y v _ hs hf hr =>
  (put1_writesLevel x y v).changes_one_pixel hs hf hr

/-- Settles O30, as a write of a level in the 2-bit format. -/
theorem put2ChangesOnePixel : Obligations.Put2ChangesOnePixel := fun x y g _ hs hf hr =>
  (put2_writesLevel x y g).changes_one_pixel hs hf hr

end Sys2Proof.Machine
end

section
/-! ### Padding bits stay 0 (20_memory.md R42 (e))

A command that goes on leaves the geometry and every padding bit, or begins an empty list of cells. -/

namespace Sys2Proof.Machine

/-- `t` has the geometry of `s`, and the padding bits of `s` as they were. -/
def KeepsPadding (s t : State) : Prop :=
  SameGeometry s t ∧ ∀ i k, k < 8 → isPadding s.fmt s.w.toNat s.h.toNat i k →
    t.bitAt i k = s.bitAt i k

theorem KeepsPadding.paddingZero {s t : State} (h : KeepsPadding s t) (hs : s.PaddingZero) :
    t.PaddingZero := by
  obtain ⟨⟨hfmt, hw, hh⟩, hbits⟩ := h
  intro i b k hb hk hpad
  rw [hfmt, hw, hh] at hpad
  have hbit : s.bitAt i k = some (b.getLsbD k) := by
    rw [← hbits i k hk hpad, State.bitAt, hb, Option.map_some]
  obtain ⟨c, hc, hck⟩ := Option.map_eq_some_iff.1 hbit
  rw [← hck]
  exact hs i c k hc hk hpad

/-- A buffer with no cell listed is all zeros. -/
theorem paddingZero_of_buf_nil {s : State} (h : s.buf = []) : s.PaddingZero := by
  intro i b k hb _ _
  obtain ⟨-, hget⟩ := byteAt_eq_some.1 hb
  rw [h, Memory.get_nil] at hget
  simp [← hget]

theorem keepsPadding_refl (s : State) : KeepsPadding s s := ⟨⟨rfl, rfl, rfl⟩, fun _ _ _ _ => rfl⟩

theorem keepsPadding_raise (e : CmdError) (s : State) : KeepsPadding s (raise e s) :=
  keepsPadding_refl s

theorem keepsPadding_respond (v : Data) (s : State) : KeepsPadding s (respond v s) :=
  keepsPadding_refl s

/-- A pixel of the image has no padding bit. -/
theorem keepsPadding_withLevel {s : State} {f : Format} {x y : Coord} (hs : s.Inv) (hf : s.fmt = f)
    (hr : s.inImage x y) (v : Level f) (rsp : Data) :
    KeepsPadding s (respond rsp (s.withLevel f x y v)) := by
  refine ⟨⟨rfl, rfl, rfl⟩, fun i k hk hpad => ?_⟩
  rw [hf] at hpad
  exact withLevel_bitAt hs hf hr v hk (hpad _ _ hr.1 hr.2)

/-- A PUT or PIX is refused or writes a level. -/
theorem PixelWrite.keepsPadding {f : Format} {x y : Coord} {v : Level f} {rsp : Data} {s t : State}
    (hs : s.Inv) (h : PixelWrite f x y (s.indexOf f x y)
      (fun b => putLevel b (pixelOffset f x.toNat y.toNat) v) rsp s t) : KeepsPadding s t := by
  rcases h with ⟨-, rfl⟩ | ⟨-, -, rfl⟩ | ⟨hf, hr, b, hb, rfl⟩
  · exact keepsPadding_raise _ s
  · exact keepsPadding_raise _ s
  · obtain ⟨-, rfl⟩ := byteAt_eq_some.1 hb
    exact keepsPadding_withLevel hs hf hr v rsp

theorem exec_keepsPadding {i : Instr} {s t : State} (hs : s.Inv) (h : exec i s = .next t) :
    KeepsPadding s t ∨ t.buf = [] := by
  cases i with
  | nop | lum _ | quant1 _ | quant2 _ | rdbuf _ | rdreg _ =>
    rcases exec_of_not_mayWriteBuf rfl h with ⟨e, rfl⟩ | ⟨v, rfl⟩
    · exact .inl (keepsPadding_raise e s)
    · exact .inl (keepsPadding_respond v s)
  | start1 w h' | start2 w h' =>
    rcases startBuffer_cases h with ⟨-, rfl⟩ | ⟨-, rfl⟩
    · exact .inl (keepsPadding_raise _ s)
    · exact .inr rfl
  | put1 x y v => exact .inl (PixelWrite.keepsPadding hs (execPut1_cases h))
  | put2 x y g => exact .inl (PixelWrite.keepsPadding hs (execPut2_cases h))
  | pix1 x y p => exact .inl (PixelWrite.keepsPadding hs (execPix1_cases h))
  | pix2 x y p => exact .inl (PixelWrite.keepsPadding hs (execPix2_cases h))

/-- Settles O48: a reset empties the buffer, and `exec_keepsPadding` says what a command does. -/
theorem stepKeepsPaddingZero : Obligations.StepKeepsPaddingZero := by
  intro s t hs hz h
  rcases step_cases h with ⟨-, rfl⟩ | ⟨rest, -, rfl⟩ | ⟨w, rest, i, -, -, hi⟩ |
    ⟨w, rest, e, -, -, rfl⟩
  · exact hz
  · exact paddingZero_of_buf_nil rfl
  · rcases exec_keepsPadding (hs.pending rest) hi with hk | hnil
    · exact hk.paddingZero hz
    · exact paddingZero_of_buf_nil hnil
  · exact hz

end Sys2Proof.Machine
end

section
/-! ### A list of writes (20_memory.md R43)

Each pixel ends with the level of the last write to it and each padding bit stays, and every bit of the
buffer is one or the other; so the bytes are determined by the last levels. -/

namespace Sys2Proof.Machine

theorem lastLevel_cons {n : Nat} (q : Coord × Coord × BitVec n)
    (qs : List (Coord × Coord × BitVec n)) (x y : Coord) :
    lastLevel (q :: qs) x y =
      (lastLevel qs x y).or (if x = q.1 ∧ y = q.2.1 then some q.2.2 else none) := by
  rw [lastLevel, lastLevel, List.reverse_cons, List.find?_append, Option.map_or, List.find?_singleton]
  simp only [decide_eq_true_eq, eq_comm (a := x), eq_comm (a := y), apply_ite (Option.map _),
    Option.map_some, Option.map_none]

/-- What a list of writes of levels makes of `s`: nothing but `BUF` and the responses changes, each pixel
of the image has the level of the last write to it, and the padding bits are as before. -/
structure Written {f : Format} (writes : List (Coord × Coord × Level f)) (s t : State) : Prop where
  frame : t = { s with buf := t.buf, responses := t.responses }
  level : ∀ x y : Coord, s.inImage x y → t.level f x y = (lastLevel writes x y).or (s.level f x y)
  padding : ∀ i k, k < 8 → isPadding f s.w.toNat s.h.toNat i k → t.bitAt i k = s.bitAt i k

theorem written_nil (f : Format) (s : State) : Written (f := f) [] s s :=
  ⟨rfl, fun _ _ _ => rfl, fun _ _ _ _ => rfl⟩

/-- One write before a list of writes. -/
theorem written_cons {f : Format} {q : Coord × Coord × Level f}
    {qs : List (Coord × Coord × Level f)} {s t : State} {rsp : Data} (hs : s.Inv) (hf : s.fmt = f)
    (hr : s.inImage q.1 q.2.1)
    (ht : Written qs (respond rsp (s.withLevel f q.1 q.2.1 q.2.2)) t) : Written (q :: qs) s t where
  frame := ht.frame
  level x y hxy := by
    have hstep : (respond rsp (s.withLevel f q.1 q.2.1 q.2.2)).level f x y = _ :=
      withLevel_level hs hf hr q.2.2 hxy
    rw [ht.level x y hxy, hstep, lastLevel_cons, Option.or_assoc]
    split <;> rfl
  padding i k hk hpad :=
    (ht.padding i k hk hpad).trans (withLevel_bitAt hs hf hr q.2.2 hk (hpad _ _ hr.1 hr.2))

/-- Commands that write levels of the image run to their end. -/
theorem execAll_written {f : Format} (cmd : Coord × Coord × Level f → Instr)
    {writes : List (Coord × Coord × Level f)} {s : State}
    (hcmd : ∀ q ∈ writes, WritesLevel f (cmd q) q.1 q.2.1 q.2.2) (hs : s.Inv) (hf : s.fmt = f)
    (hr : ∀ q ∈ writes, s.inImage q.1 q.2.1) :
    ∃ t, execAll (writes.map cmd) s = .next t ∧ Written writes s t := by
  induction writes generalizing s with
  | nil => exact ⟨s, rfl, written_nil f s⟩
  | cons q qs ih =>
    rw [List.forall_mem_cons] at hcmd hr
    obtain ⟨hq, hqs⟩ := hcmd
    obtain ⟨hrq, hrqs⟩ := hr
    obtain ⟨rsp, hexec⟩ := hq s hs hf hrq
    obtain ⟨t, hrun, ht⟩ := ih hqs ((inv_withLevel hs hf hrq q.2.2).respond rsp) hf hrqs
    refine ⟨t, ?_, written_cons hs hf hrq ht⟩
    rw [List.map_cons, execAll, hexec]
    exact hrun

/-- Settles O52, as a list of writes of levels in the 1-bit format. -/
theorem lastWriteDecidesPixels1 : Obligations.LastWriteDecidesPixels1 := by
  intro writes s hs hf hr
  obtain ⟨t, hrun, ht⟩ := execAll_written (f := .oneBit) (fun q => .put1 q.1 q.2.1 q.2.2)
    (fun q _ => put1_writesLevel q.1 q.2.1 q.2.2) hs hf hr
  exact ⟨t, hrun, ht.level⟩

/-- Settles O53, as a list of writes of levels in the 2-bit format. -/
theorem lastWriteDecidesPixels2 : Obligations.LastWriteDecidesPixels2 := by
  intro writes s hs hf hr
  obtain ⟨t, hrun, ht⟩ := execAll_written (f := .twoBit) (fun q => .put2 q.1 q.2.1 q.2.2)
    (fun q _ => put2_writesLevel q.1 q.2.1 q.2.2) hs hf hr
  exact ⟨t, hrun, ht.level⟩

/-- A bit of the buffer is padding or belongs to a pixel of the image. -/
theorem isPadding_or_pixelHasBit (f : Format) (s : State) (i k : Nat) :
    isPadding f s.w.toNat s.h.toNat i k ∨ ∃ x y : Coord, s.inImage x y ∧
      pixelHasBit f s.w.toNat s.h.toNat x.toNat y.toNat i k := by
  refine or_iff_not_imp_left.2 fun hpad => ?_
  simp only [isPadding, not_forall, not_not] at hpad
  obtain ⟨x, y, hx, hy, hbit⟩ := hpad
  have hx' : (BitVec.ofNat 16 x).toNat = x := Nat.mod_eq_of_lt (hx.trans s.w.isLt)
  have hy' : (BitVec.ofNat 16 y).toNat = y := Nat.mod_eq_of_lt (hy.trans s.h.isLt)
  exact ⟨BitVec.ofNat 16 x, BitVec.ofNat 16 y, by rw [State.inImage, hx', hy']; exact ⟨hx, hy⟩,
    by rwa [hx', hy']⟩

/-- After a list of writes, a bit of a pixel is the bit of the pixel's last level. -/
theorem Written.bitAt {f : Format} {writes : List (Coord × Coord × Level f)} {s t : State}
    (h : Written writes s t) {x y : Coord} {i k : Nat} (hr : s.inImage x y)
    (hbit : pixelHasBit f s.w.toNat s.h.toNat x.toNat y.toNat i k) :
    t.bitAt i k = ((lastLevel writes x y).or (s.level f x y)).map
      (·.getLsbD (k - pixelOffset f x.toNat y.toNat)) := by
  have hw : t.w = s.w := by rw [h.frame]
  have hh : t.h = s.h := by rw [h.frame]
  rw [← h.level x y hr]
  exact bitAt_of_pixelHasBit (by rwa [hw, hh])

/-- The last levels determine the bytes. -/
theorem Written.byteAt_eq {f : Format} {us vs : List (Coord × Coord × Level f)} {s t u : State}
    (ht : Written us s t) (hu : Written vs s u)
    (hlast : ∀ x y, lastLevel us x y = lastLevel vs x y) (i : Nat) : t.byteAt i = u.byteAt i := by
  refine byteAt_eq_of_bitAt fun k hk => ?_
  rcases isPadding_or_pixelHasBit f s i k with hpad | ⟨x, y, hr, hbit⟩
  · rw [ht.padding i k hk hpad, hu.padding i k hk hpad]
  · rw [ht.bitAt hr hbit, hu.bitAt hr hbit, hlast]

/-- Commands that write the same last levels leave the same bytes. -/
theorem execAll_byteAt_eq {f : Format} (cmd : Coord × Coord × Level f → Instr)
    (hcmd : ∀ q, WritesLevel f (cmd q) q.1 q.2.1 q.2.2) {us vs : List (Coord × Coord × Level f)}
    {s : State} (hs : s.Inv) (hf : s.fmt = f) (hr : ∀ q ∈ us ++ vs, s.inImage q.1 q.2.1)
    (hlast : ∀ x y, lastLevel us x y = lastLevel vs x y) :
    ∃ t u, execAll (us.map cmd) s = .next t ∧ execAll (vs.map cmd) s = .next u ∧
      ∀ i, t.byteAt i = u.byteAt i := by
  rw [List.forall_mem_append] at hr
  obtain ⟨t, htrun, ht⟩ := execAll_written cmd (fun q _ => hcmd q) hs hf hr.1
  obtain ⟨u, hurun, hu⟩ := execAll_written cmd (fun q _ => hcmd q) hs hf hr.2
  exact ⟨t, u, htrun, hurun, ht.byteAt_eq hu hlast⟩

/-- Settles O54, as lists of writes of levels in either format. -/
theorem writeOrderDoesNotMatter : Obligations.WriteOrderDoesNotMatter :=
  ⟨fun _ _ _ hs hf hr hlast => execAll_byteAt_eq (f := .oneBit) (fun q => .put1 q.1 q.2.1 q.2.2)
      (fun q => put1_writesLevel q.1 q.2.1 q.2.2) hs hf hr hlast,
    fun _ _ _ hs hf hr hlast => execAll_byteAt_eq (f := .twoBit) (fun q => .put2 q.1 q.2.1 q.2.2)
      (fun q => put2_writesLevel q.1 q.2.1 q.2.2) hs hf hr hlast⟩

end Sys2Proof.Machine
end

section
/-! ### A word and its four fields (30_encoding.md R50, R52, R58, R62) -/

namespace Sys2Proof

theorem toNat_append_eq_add {m n : Nat} (x : BitVec m) (y : BitVec n) :
    (x ++ y).toNat = x.toNat * 2 ^ n + y.toNat := by
  rw [BitVec.toNat_append, ← Nat.shiftLeft_add_eq_or_of_lt y.isLt, Nat.shiftLeft_eq]

theorem mkWord_toNat (op : OpBits) (a b : Coord) (d : Data) : (mkWord op a b d).toNat =
    op.toNat * 2 ^ 64 + a.toNat * 2 ^ 48 + b.toNat * 2 ^ 32 + d.toNat := by
  change BitVec.toNat (w := 4 + 16 + 16 + 32) (op ++ a ++ b ++ d) = _
  rw [toNat_append_eq_add, toNat_append_eq_add, toNat_append_eq_add]
  ring

/-- Settles O2, from the value of a word made of four fields. -/
theorem wordIsSumOfShiftedFields : Obligations.WordIsSumOfShiftedFields :=
  ⟨fun i => mkWord_toNat i.opcode i.aOperand i.bOperand i.dOperand, rfl⟩

/-- A level laid out in the field `d` is read back from it. -/
theorem extractLsb'_zeroExtend_self {m n : Nat} (v : BitVec n) (h : n ≤ m) :
    (v.zeroExtend m).extractLsb' 0 n = v := by
  rw [BitVec.zeroExtend, BitVec.extractLsb'_setWidth_of_le (by omega), BitVec.extractLsb'_eq_self]

/-- A word made of fields is decoded by them, and what is laid out in `d` is read back. -/
theorem decode_encode (i : Instr) : decode (encode i) = .ok i := by
  rw [encode, decode_mkWord]
  cases i with
  | nop | start1 _ _ | start2 _ _ | rdbuf _ | rdreg _ => rfl
  | lum p | quant1 p | quant2 p | pix1 _ _ p | pix2 _ _ p =>
    simp only [Instr.opcode, Instr.aOperand, Instr.bOperand, Instr.dOperand, decodeFields,
      BitVec.reduceToNat, pixelOf_dataOf]
  | put1 x y v =>
    exact congrArg (Except.ok ∘ Instr.put1 x y) (extractLsb'_zeroExtend_self v (by decide))
  | put2 x y g =>
    exact congrArg (Except.ok ∘ Instr.put2 x y) (extractLsb'_zeroExtend_self g (by decide))

/-- Settles O1, by decoding the fields the encoder writes. -/
theorem decodeOfEncodeIsSame : Obligations.DecodeOfEncodeIsSame := decode_encode

/-- The field `d` is the low end of the word, so its bits have the numbers they have in the word. -/
theorem extractLsb'_dField (w : CmdWord) {start len : Nat} (h : start + len ≤ 32) :
    (dField w).extractLsb' start len = w.extractLsb' start len :=
  BitVec.extractLsb'_extractLsb'_of_le h

theorem pixelOf_dField (w : CmdWord) : pixelOf (dField w) =
    ⟨w.extractLsb' 24 8, w.extractLsb' 16 8, w.extractLsb' 8 8, w.extractLsb' 0 8⟩ := by
  rw [pixelOf, extractLsb'_dField w (by decide), extractLsb'_dField w (by decide),
    extractLsb'_dField w (by decide), extractLsb'_dField w (by decide)]

theorem decode_of_opField {w : CmdWord} {op : OpBits} (h : opField w = op) :
    decode w = decodeFields op (aField w) (bField w) (dField w) := by
  rw [decode, h]

/-- Settles O3: the opcode selects the arm, and the bits of `d` are bits of the word. -/
theorem commandWordFieldPositions : Obligations.CommandWordFieldPositions := by
  intro w
  have hd (op : OpBits) (h : opField w = op) := decode_of_opField h
  dsimp only
  rw [← pixelOf_dField, ← extractLsb'_dField w (start := 0) (len := 1) (by decide),
    ← extractLsb'_dField w (start := 0) (len := 2) (by decide)]
  exact ⟨hd 0x0, hd 0x1, hd 0x2, hd 0x3, hd 0x4, hd 0x5, hd 0x6, hd 0x7, hd 0x8, hd 0x9, hd 0xA,
    hd 0xB⟩

end Sys2Proof
end

section
/-! ### Opcodes that are commands and reserved opcodes (30_encoding.md R56) -/

namespace Sys2Proof

theorem decodeFields_of_lt {op : OpBits} (h : op < 0xC) (a b : Coord) (d : Data) :
    ∃ i, decodeFields op a b d = .ok i := by
  have hlt : op.toNat < 12 := h
  unfold decodeFields
  interval_cases op.toNat <;> exact ⟨_, rfl⟩

theorem decodeFields_of_le {op : OpBits} (h : 0xC ≤ op) (a b : Coord) (d : Data) :
    decodeFields op a b d = .error (.reservedOpcode op) := by
  have hle : 12 ≤ op.toNat := h
  have hlt : op.toNat < 16 := op.isLt
  unfold decodeFields
  interval_cases op.toNat <;> rfl

end Sys2Proof

namespace Sys2Proof.Machine

/-- Settles O4, by what the opcode alone decides and the step of a word that is no command. -/
theorem reservedOpcodeRaisesEOp : Obligations.ReservedOpcodeRaisesEOp := by
  intro s w rest hp
  refine ⟨fun hop => decodeFields_of_lt hop _ _ _, fun hop => ?_⟩
  have hd : decode w = .error (.reservedOpcode (opField w)) := decodeFields_of_le hop _ _ _
  exact ⟨hd, step_of_decode_error hp hd⟩

end Sys2Proof.Machine
end

section
/-! ### Bits that a command does not read (30_encoding.md R57)

Clearing the unread bits of a word leaves the command it decodes to, but for the alpha of LUM, which
has no effect; so two words that agree on the bits read do the same as one word. -/

namespace Sys2Proof

/-- The command with 0 in the one operand that has no effect: LUM's alpha (40_quantizer.md R73). -/
def Instr.withoutUnused : Instr → Instr
  | .lum p => .lum { p with a := 0 }
  | i => i

/-- A mask that is all ones in some bits leaves those bits. -/
theorem extractLsb'_and_of_allOnes {n start len : Nat} {m : BitVec n}
    (hm : m.extractLsb' start len = BitVec.allOnes len) (x : BitVec n) :
    (x &&& m).extractLsb' start len = x.extractLsb' start len := by
  rw [BitVec.extractLsb'_and, hm, BitVec.and_allOnes]

theorem coord_and_allOnes (a : Coord) : a &&& 0xFFFF = a := BitVec.and_allOnes

theorem data_and_allOnes (d : Data) : d &&& 0xFFFFFFFF = d := BitVec.and_allOnes

theorem extractLsb'_and_one (d : Data) : (d &&& 0x1).extractLsb' 0 1 = d.extractLsb' 0 1 :=
  extractLsb'_and_of_allOnes rfl d

theorem extractLsb'_and_three (d : Data) : (d &&& 0x3).extractLsb' 0 2 = d.extractLsb' 0 2 :=
  extractLsb'_and_of_allOnes rfl d

theorem pixelOf_and_colours (d : Data) :
    pixelOf (d &&& 0xFFFFFF00) = { pixelOf d with a := 0 } := by
  rw [pixelOf, extractLsb'_and_of_allOnes rfl, extractLsb'_and_of_allOnes rfl,
    extractLsb'_and_of_allOnes rfl, BitVec.extractLsb'_and]
  exact congrArg (Pixel.mk _ _ _) BitVec.and_zero

theorem decodeFields_and_readMask (op : OpBits) (a b : Coord) (d : Data) :
    decodeFields op (a &&& aField (readMask op)) (b &&& bField (readMask op))
      (d &&& dField (readMask op)) = (decodeFields op a b d).map Instr.withoutUnused := by
  unfold decodeFields readMask
  split <;> simp only [aField_mkWord, bField_mkWord, dField_mkWord, coord_and_allOnes,
    data_and_allOnes, extractLsb'_and_one, extractLsb'_and_three, pixelOf_and_colours,
    Except.map, Instr.withoutUnused]

theorem opField_readMask (op : OpBits) : opField (readMask op) = BitVec.allOnes 4 := by
  unfold readMask
  split <;> exact opField_mkWord ..

/-- The opcode is always read. -/
theorem opField_and_readMask (w : CmdWord) (op : OpBits) :
    opField (w &&& readMask op) = opField w :=
  extractLsb'_and_of_allOnes (opField_readMask op) w

theorem decode_and_readMask (w : CmdWord) :
    decode (w &&& readMask (opField w)) = (decode w).map Instr.withoutUnused := by
  rw [decode_of_opField (opField_and_readMask w _), decode, ← decodeFields_and_readMask]
  simp only [aField, bField, dField, BitVec.extractLsb'_and]

theorem wellFormed_eq_false_iff {i : Instr} :
    i.wellFormed = false ↔ ∃ n : Coord, i = .rdreg n ∧ 7 ≤ n.toNat := by
  cases i with
  | rdreg n =>
    have hn : (Instr.rdreg n).wellFormed = false ↔ 7 ≤ n.toNat :=
      decide_eq_false_iff_not.trans Nat.not_lt
    simp [hn]
  | _ => simp [Instr.wellFormed]

end Sys2Proof

namespace Sys2Proof.Machine

theorem exec_withoutUnused (i : Instr) (s : State) : exec i.withoutUnused s = exec i s := by
  cases i <;> rfl

theorem step_and_readMask (s : State) (w : CmdWord) (rest : List HostEvent) :
    step { s with pending := .command (w &&& readMask (opField w)) :: rest } =
      step { s with pending := .command w :: rest } := by
  have hm := decode_and_readMask w
  cases hd : decode w with
  | ok i =>
    rw [hd] at hm
    rw [step_of_decode_ok rfl hm, step_of_decode_ok rfl hd]
    exact exec_withoutUnused i _
  | error e =>
    rw [hd] at hm
    rw [step_of_decode_error rfl hm, step_of_decode_error rfl hd]

/-- The opcode is among the bits read, so words that agree on them are masked alike. -/
theorem step_eq_of_and_readMask_eq {w w' : CmdWord}
    (h : w &&& readMask (opField w) = w' &&& readMask (opField w)) (s : State)
    (rest : List HostEvent) : step { s with pending := .command w :: rest } =
      step { s with pending := .command w' :: rest } := by
  have hop : opField w = opField w' := by
    rw [← opField_and_readMask w (opField w), h, opField_and_readMask]
  rw [← step_and_readMask s w, h, hop, step_and_readMask]

/-- Settles O5: the step of a word is that of its read bits, and an illegal command names a register
that does not exist. -/
theorem unreadBitsAreIgnored : Obligations.UnreadBitsAreIgnored := by
  refine ⟨fun s w w' rest h => step_eq_of_and_readMask_eq h s rest,
    fun i => wellFormed_eq_false_iff, fun i s hi => ?_⟩
  obtain ⟨n, rfl, hn⟩ := wellFormed_eq_false_iff.1 hi
  exact execRdreg_of_none (register_eq_none.2 hn)

end Sys2Proof.Machine
end

section
/-! ### The response to a word (30_encoding.md R53) -/

namespace Sys2Proof.Machine

theorem Response.extractLsb'_word_value (r : Response) : r.word.extractLsb' 0 32 = r.value :=
  BitVec.extractLsb'_append_eq_right

theorem Response.extractLsb'_word_code (r : Response) : r.word.extractLsb' 32 4 = r.code.bits :=
  BitVec.extractLsb'_append_eq_left

theorem CommandEffect.pending_eq {s t : State} (h : CommandEffect s t) : t.pending = s.pending := by
  rcases h with ⟨e, rfl⟩ | ⟨v, rfl⟩ | ⟨v, j, b, b', -, rfl⟩ | ⟨v, f, w, h', -, rfl⟩ <;> rfl

/-- A response of an error has value 0. -/
theorem CommandEffect.exists_response_value {s t : State} (h : CommandEffect s t) :
    ∃ r : Response, t.responses = s.responses ++ [r] ∧ ∀ e, r.code = .err e → r.value = 0 := by
  rcases h.response_err with ⟨⟨v, hv⟩, -⟩ | ⟨e, he, -⟩
  · exact ⟨⟨.ok, v⟩, hv, nofun⟩
  · exact ⟨⟨.err e, 0⟩, he, fun _ _ => rfl⟩

/-- Settles O9: a presented word is dealt with in every state of the invariant, and each of its
effects adds one response. -/
theorem oneResponsePerCommand : Obligations.OneResponsePerCommand := by
  intro s w rest hs hp
  obtain ⟨t, -, ht, -⟩ := step_word_answers_once hs hp
  have heff := step_word_effect hp ht
  obtain ⟨r, hr, hvalue⟩ := heff.exists_response_value
  refine ⟨t, r, ht, heff.pending_eq, hr, r.extractLsb'_word_value, fun hok => ?_, fun e he => ?_⟩
  · rw [r.extractLsb'_word_code, hok, RspCode.bits]
  · refine ⟨hvalue e he, ?_⟩
    rw [r.extractLsb'_word_code, he]
    cases e <;> rfl

end Sys2Proof.Machine
end

section
/-! ### Sample words and lines (30_encoding.md R55, R60 to R62) -/

namespace Sys2Proof.Machine

/-- Settles O6, each word by its fields. -/
theorem sampleWordsDecode : Obligations.SampleWordsDecode :=
  ⟨rfl, rfl, rfl, rfl, rfl, rfl, rfl, rfl, rfl, rfl⟩

theorem assembledWord_start_formatNumber :
    assembledWord "START 0, 2, 2" = some 0x10002000200000000 := by decide

theorem assembledWord_start1 : assembledWord "START1 2, 2" = some 0x10002000200000000 := by decide

theorem assembledWord_rdreg_name :
    assembledWord "RDREG PITCH" = some 0xB0003000000000000 := by decide

theorem assembledWord_rdreg_number : assembledWord "RDREG 3" = some 0xB0003000000000000 := by decide

/-- Settles O8: each line by its tokens; the lines said to agree do so in a word they both have. -/
theorem assemblerLinesGiveWords : Obligations.AssemblerLinesGiveWords :=
  ⟨by decide, by decide,
    assembledWord_start_formatNumber.trans assembledWord_start1.symm, by decide, by decide,
    assembledWord_rdreg_name.trans assembledWord_rdreg_number.symm, by decide, by decide⟩

end Sys2Proof.Machine
end

section
/-! ### The luminance (40_quantizer.md R70, R73, R76, R78 (a))

The weights sum to the divisor 1000, so 255 bounds the luminance and a gray pixel keeps its channel. -/

namespace Sys2Proof.Machine

theorem channel_le (c : Channel) : c.toNat ≤ 255 := Nat.le_of_lt_succ c.isLt

theorem weightedSum_le (p : Pixel) :
    p.r.toNat * 299 + p.g.toNat * 587 + p.b.toNat * 114 ≤ 255000 := by
  have hr := channel_le p.r
  have hg := channel_le p.g
  have hb := channel_le p.b
  omega

theorem lum_quantizer_le (p : Pixel) : lum Config.quantizer p ≤ 255 :=
  Nat.div_le_div_right (weightedSum_le p)

theorem lum_quantizer_gray (v a : Channel) : lum Config.quantizer ⟨v, v, v, a⟩ = v.toNat := by
  have hsum : v.toNat * 299 + v.toNat * 587 + v.toNat * 114 = v.toNat * 1000 := by ring
  rw [lum_quantizer, hsum, Nat.mul_div_cancel _ (by decide)]

/-- Settles O11, from the bound on the weighted sum and the sum of the weights. -/
theorem luminanceFitsEightBits : Obligations.LuminanceFitsEightBits :=
  ⟨fun p => ⟨weightedSum_le p, lum_quantizer_le p⟩, lum_quantizer_gray⟩

theorem lum_quantizer_mono {p q : Pixel} (hr : p.r.toNat ≤ q.r.toNat)
    (hg : p.g.toNat ≤ q.g.toNat) (hb : p.b.toNat ≤ q.b.toNat) :
    lum Config.quantizer p ≤ lum Config.quantizer q := by
  have hsum : p.r.toNat * 299 + p.g.toNat * 587 + p.b.toNat * 114 ≤
      q.r.toNat * 299 + q.g.toNat * 587 + q.b.toNat * 114 := by gcongr
  exact Nat.div_le_div_right hsum

/-- Settles O10: the opcode selects LUM, and LUM answers the luminance of the block's constants. -/
theorem lumAnswersLuminance : Obligations.LumAnswersLuminance :=
  ⟨decode_mkWord 0x3, fun p s => by rw [execLum_eq, lum_quantizer]; rfl⟩

end Sys2Proof.Machine
end

section
/-! ### The two mappings (40_quantizer.md R71, R72, R74, R75, R78) -/

namespace Sys2Proof.Machine

/-- Past the alpha gate, the 2-bit level counts the breakpoints above the luminance. -/
theorem quant2_toNat_of_le_alpha {p : Pixel} (ha : 64 ≤ p.a.toNat) :
    (quant2 Config.quantizer p).toNat =
      (if lum Config.quantizer p < 254 then 1 else 0) +
      (if lum Config.quantizer p < 168 then 1 else 0) +
      (if lum Config.quantizer p < 90 then 1 else 0) := by
  rw [quant2_quantizer, if_neg (Nat.not_lt.2 ha)]
  simp only [apply_ite BitVec.toNat, BitVec.reduceToNat]
  split_ifs <;> omega

/-- A brighter pixel has no more breakpoints above it. -/
theorem quant2_antitone {p q : Pixel} (hp : 64 ≤ p.a.toNat) (hq : 64 ≤ q.a.toNat)
    (h : lum Config.quantizer p ≤ lum Config.quantizer q) :
    (quant2 Config.quantizer q).toNat ≤ (quant2 Config.quantizer p).toNat := by
  have hcount (n : Nat) : (if lum Config.quantizer q < n then 1 else 0) ≤
      if lum Config.quantizer p < n then 1 else 0 := by
    split_ifs <;> omega
  rw [quant2_toNat_of_le_alpha hp, quant2_toNat_of_le_alpha hq]
  exact Nat.add_le_add (Nat.add_le_add (hcount 254) (hcount 168)) (hcount 90)

theorem quant2_alpha_congr (p : Pixel) {a : Channel} (h : p.a.toNat < 64 ↔ a.toNat < 64) :
    quant2 Config.quantizer { p with a := a } = quant2 Config.quantizer p := by
  rw [quant2_quantizer, quant2_quantizer]
  exact if_congr h.symm rfl rfl

theorem quant1_alpha_congr (p : Pixel) {a : Channel} (h : p.a.toNat < 128 ↔ a.toNat < 128) :
    quant1 Config.quantizer { p with a := a } = quant1 Config.quantizer p := by
  rw [quant1_quantizer, quant1_quantizer]
  exact if_congr h.symm rfl rfl

theorem quant1_of_alpha_lt {p : Pixel} (h : p.a.toNat < 128) : quant1 Config.quantizer p = 0 :=
  if_pos h

/-- Settles O14; the grays 168 and 192 lie in one band of the 2-bit mapping, on either side of the
1-bit threshold. -/
theorem quantizerIsMonotoneAndAlphaIsAGate : Obligations.QuantizerIsMonotoneAndAlphaIsAGate :=
  ⟨fun _ _ => lum_quantizer_mono, fun _ _ => quant2_antitone, fun p _ => quant2_alpha_congr p,
    fun p _ => quant1_alpha_congr p, fun _ _ h => quant1_of_alpha_lt h,
    ⟨168, 168, 168, 255⟩, ⟨192, 192, 192, 255⟩, by decide, by decide⟩

theorem quant1_zeroExtend (p : Pixel) : (quant1 Config.quantizer p).zeroExtend 32 =
    if p.a.toNat < 128 then 0 else if lum Config.quantizer p < 192 then 1 else 0 := by
  simp only [quant1_quantizer, apply_ite (BitVec.zeroExtend 32)]
  rfl

theorem quant2_zeroExtend (p : Pixel) : (quant2 Config.quantizer p).zeroExtend 32 =
    if p.a.toNat < 64 then 0
    else if 254 ≤ lum Config.quantizer p then 0
    else if 168 ≤ lum Config.quantizer p then 1
    else if 90 ≤ lum Config.quantizer p then 2
    else 3 := by
  simp only [quant2_quantizer, apply_ite (BitVec.zeroExtend 32)]
  rfl

/-- Settles O12: the opcode selects QUANT1, and the level is laid out in the response's value. -/
theorem quant1AnswersBinaryLevel : Obligations.Quant1AnswersBinaryLevel :=
  ⟨decode_mkWord 0x4, fun p s => by rw [execQuant1_eq, quant1_zeroExtend, lum_quantizer]; rfl⟩

/-- Settles O13: the opcode selects QUANT2, and the level is laid out in the response's value. -/
theorem quant2AnswersGrayLevel : Obligations.Quant2AnswersGrayLevel :=
  ⟨decode_mkWord 0x5, fun p s => by rw [execQuant2_eq, quant2_zeroExtend, lum_quantizer]; rfl⟩

end Sys2Proof.Machine
end

section
/-! ### A buffer just begun (41_packer_1bit.md R93, R97; 42_packer_2bit.md R113, R117) -/

namespace Sys2Proof.Machine

section
variable {s : State} {f : Format} {w h : Coord} (hn : lenOf f w h ≤ s.bufBytes)
include hn

theorem beginBuffer_byteAt {i : Nat} (hi : i < lenOf f w h) :
    (s.beginBuffer f w h).byteAt i = some 0 :=
  byteAt_of_lt hi (hi.trans_le hn)

/-- A pixel of a buffer of zeros has level 0. -/
theorem beginBuffer_level {x y : Coord} (hr : (s.beginBuffer f w h).inImage x y) :
    (s.beginBuffer f w h).level f x y = some 0 := by
  have hi : (s.beginBuffer f w h).indexOf f x y < lenOf f w h := indexOf_lt_len rfl hr
  rw [State.level, beginBuffer_byteAt hn hi]
  exact congrArg some BitVec.extractLsb'_zero

end

theorem execStart1_tooLarge {w h : Coord} {s : State} (hn : s.bufBytes < len1 w.toNat h.toNat) :
    exec (.start1 w h) s = .next (raise .eSize s) := startBuffer_tooLarge hn

theorem execStart1_fits {w h : Coord} {s : State} (hn : len1 w.toNat h.toNat ≤ s.bufBytes) :
    exec (.start1 w h) s =
      .next (respond (BitVec.ofNat 32 (len1 w.toNat h.toNat)) (s.beginBuffer .oneBit w h)) :=
  startBuffer_fits hn

theorem execStart2_fits {w h : Coord} {s : State} (hn : len2 w.toNat h.toNat ≤ s.bufBytes) :
    exec (.start2 w h) s =
      .next (respond (BitVec.ofNat 32 (len2 w.toNat h.toNat)) (s.beginBuffer .twoBit w h)) :=
  startBuffer_fits hn

/-- Settles O31: a START that fits answers on a buffer just begun, whose pixels have level 0. -/
theorem unwrittenPixelsAreBackground : Obligations.UnwrittenPixelsAreBackground := fun _ _ _ =>
  ⟨fun hn => ⟨_, execStart1_fits hn, fun _ _ hr => beginBuffer_level (f := .oneBit) hn hr⟩,
    fun hn => ⟨_, execStart2_fits hn, fun _ _ hr => beginBuffer_level (f := .twoBit) hn hr⟩⟩

/-- Settles O18: the opcode selects START1, which refuses or answers on a buffer just begun. -/
theorem start1BeginsZeroedBuffer : Obligations.Start1BeginsZeroedBuffer := by
  refine ⟨decode_mkWord 0x1, fun w h s => ⟨execStart1_tooLarge, fun hn => ?_⟩⟩
  have hzero (i : Nat) := beginBuffer_byteAt (f := .oneBit) hn (i := i)
  exact ⟨_, execStart1_fits hn, rfl, rfl, rfl, hzero⟩

end Sys2Proof.Machine
end

section
/-! ### Where the pixels of a 1-bit image lie (41_packer_1bit.md R90 to R92, R94, R96) -/

namespace Sys2Proof.Machine

/-- R90: the stride is the least number of bytes that hold a row. -/
theorem stride_bounds (w : Nat) : w ≤ 8 * stride w ∧ 8 * stride w < w + 8 := by
  unfold stride; omega

theorem len1_eq_zero_iff {w h : Nat} : len1 w h = 0 ↔ w = 0 ∨ h = 0 := by
  have hstride : stride w = 0 ↔ w = 0 := by unfold stride; omega
  rw [len1, Nat.mul_eq_zero, hstride]

/-- Settles O15, from the bounds on the stride and the place of a pixel of the image. -/
theorem rowStrideIsCeiling : Obligations.RowStrideIsCeiling :=
  ⟨stride_bounds, rfl, fun _ _ => ⟨rfl, len1_eq_zero_iff⟩, rfl, fun _ _ _ => ⟨rfl, rfl⟩,
    fun _ _ _ _ => byte1_lt_len1⟩

theorem bit1_lt (x : Nat) : bit1 x < 8 := by unfold bit1; omega

/-- Settles O16: pixels of one byte are the same or have different bits. -/
theorem pixelMap1IsSound : Obligations.PixelMap1IsSound := fun _ _ x _ hx hy =>
  ⟨byte1_lt_len1 hx hy, bit1_lt x, fun _ _ hx' _ hbyte hbit =>
    (bit1_ne_of_byte1_eq hx hx' hbyte.symm).resolve_right (not_not.2 hbit.symm)⟩

/-- A byte holds pixels of its row alone, those of its place in the row. -/
theorem byte1_eq_iff {x y w i : Nat} (hx : x < w) :
    byte1 x y w = i ↔ i / stride w = y ∧ i % stride w = x / 8 := by
  have hcol := div_lt_stride hx
  rw [Nat.div_mod_unique (Nat.zero_lt_of_lt hcol), and_iff_left hcol, byte1, Nat.add_comm,
    Nat.mul_comm]

/-- The one place in the row that bit `k` of byte `i` can stand for lies past the end of the row. -/
theorem isPadding_oneBit_iff {w h i k : Nat} (hi : i < len1 w h) (hk : k < 8) :
    isPadding .oneBit w h i k ↔ w ≤ 8 * (i % stride w) + (7 - k) := by
  constructor
  · refine fun hpad => not_lt.1 fun hx => ?_
    have hbyte : byte1 (8 * (i % stride w) + (7 - k)) (i / stride w) w = i :=
      (byte1_eq_iff hx).2 ⟨rfl, by omega⟩
    have hbit : bit1 (8 * (i % stride w) + (7 - k)) = k := by unfold bit1; omega
    exact hpad _ _ hx (Nat.div_lt_of_lt_mul hi) ⟨hbyte, hbit⟩
  · rintro hle x y hx - ⟨hbyte, hbit⟩
    obtain ⟨-, hmod⟩ := (byte1_eq_iff hx).1 hbyte
    unfold bit1 at hbit
    omega

/-- Settles O17: only in the last byte of a row can a place lie past the row's end. -/
theorem padding1IsLowEndOfRow : Obligations.Padding1IsLowEndOfRow := by
  intro w h i k hi hk
  have hpos : 0 < stride w := Nat.pos_of_mul_pos_right (Nat.zero_lt_of_lt hi)
  have hcol : i % stride w < stride w := Nat.mod_lt i hpos
  obtain ⟨hle, hlt⟩ := stride_bounds w
  rw [isPadding_oneBit_iff hi hk]
  omega

end Sys2Proof.Machine
end

section
/-! ### PUT1 and PIX1 (41_packer_1bit.md R95, R98) -/

namespace Sys2Proof.Machine

theorem getLsbD_putBit (t : Byte) (x : Nat) (v : BinaryLevel) {k : Nat} (hk : k < 8) :
    (putBit t (bit1 x) v).getLsbD k = if k = 7 - x % 8 then v.getLsbD 0 else t.getLsbD k := by
  rw [putBit_eq_putLevel, getLsbD_putLevel t _ v hk, bit1]
  by_cases hbit : k = 7 - x % 8
  · rw [if_pos hbit, if_pos (by omega), hbit, Nat.sub_self]
  · rw [if_neg hbit, if_neg (by omega)]

section
variable {s : State} {x y : Coord} (hs : s.Inv) (hf : s.fmt = .oneBit) (hr : s.inImage x y)
include hs hf hr

theorem execPut1_eq (v : BinaryLevel) :
    exec (.put1 x y v) s = .next (respond 0 (s.withLevel .oneBit x y v)) :=
  (guarded_ok hf hr).trans (modifyByte_eq (byteAt_indexOf hs hf hr))

theorem execPix1_eq (p : Pixel) :
    exec (.pix1 x y p) s = .next (respond ((quant1 Config.quantizer p).zeroExtend 32)
      (s.withLevel .oneBit x y (quant1 Config.quantizer p))) :=
  (guarded_ok hf hr).trans (modifyByte_eq (byteAt_indexOf hs hf hr))

/-- A level of one bit replaces one bit of one byte. -/
theorem withLevel_writesBit (v : BinaryLevel) (rsp : Data) :
    WritesBit s (respond rsp (s.withLevel .oneBit x y v)) x y v rsp := by
  refine ⟨_, putBit _ (bit1 x.toNat) v, byteAt_indexOf hs hf hr, fun k => getLsbD_putBit _ _ v,
    fun j => ?_, rfl⟩
  exact (withLevel_byteAt hs hf hr v j).trans (if_congr eq_comm rfl rfl)

end

/-- Settles O19: the checks come in the order of `guarded`, and past them PUT1 writes a level. -/
theorem put1ReplacesOneBit : Obligations.Put1ReplacesOneBit := by
  refine ⟨decode_mkWord 0x6, fun x y v s => ⟨guarded_fmt, guarded_range, fun hs hf hx hy => ?_⟩⟩
  have hr : s.inImage x y := ⟨hx, hy⟩
  exact ⟨_, execPut1_eq hs hf hr v, withLevel_writesBit hs hf hr v 0⟩

/-- Settles O20: PIX1 and PUT1 of the level QUANT1 answers write the same level. -/
theorem pix1IsQuant1ThenPut1 : Obligations.Pix1IsQuant1ThenPut1 := by
  refine ⟨decode_mkWord 0x8, fun x y p s => ⟨guarded_fmt, guarded_range, fun hs hf hx hy => ?_⟩⟩
  have hr : s.inImage x y := ⟨hx, hy⟩
  exact ⟨quant1 Config.quantizer p, _, _, _, execQuant1_eq p s, rfl, execPut1_eq hs hf hr _,
    execPix1_eq hs hf hr p, withLevel_writesBit hs hf hr _ _, rfl⟩

end Sys2Proof.Machine
end

section
/-! ### Where the pixels of a 2-bit image lie (42_packer_2bit.md R110 to R112, R114, R116, R118) -/

namespace Sys2Proof.Machine

theorem bpc_eq_div (h : Nat) : bpc h = (h + 3) / 4 := by
  unfold bpc
  split
  · next hzero => rw [hzero]
  · omega

/-- R118: a column has the least number of bytes that hold its pixels. -/
theorem bpc_bounds (h : Nat) : h ≤ 4 * bpc h ∧ 4 * bpc h < h + 4 := by
  rw [bpc_eq_div]; omega

/-- Settles O23: the bytes of a column and the byte of a row are quotients by 4. -/
theorem columnFormulasHaveSimpleForms : Obligations.ColumnFormulasHaveSimpleForms :=
  ⟨fun h => ⟨bpc_eq_div h, bpc_bounds h⟩, colbyte_eq_div⟩

theorem len2_eq_zero_iff {w h : Nat} : len2 w h = 0 ↔ w = 0 ∨ h = 0 := by
  have hbpc : bpc h = 0 ↔ h = 0 := by rw [bpc_eq_div]; omega
  rw [len2, Nat.mul_eq_zero, hbpc]

/-- Settles O22: the formulas are the model's own, with the empty column apart, and a pixel of the image
lies inside its column. -/
theorem columnFormulasAreTheSources : Obligations.ColumnFormulasAreTheSources :=
  ⟨rfl, fun _ hh => if_neg (Nat.ne_zero_of_lt hh), fun _ => rfl, fun _ => ⟨rfl, rfl⟩, rfl,
    fun _ _ => ⟨rfl, len2_eq_zero_iff⟩, rfl, fun _ _ _ => rfl,
    fun _ _ _ _ hx hy => ⟨colbyte_lt_bpc hy, byte2_lt_len2 hx hy⟩⟩

theorem shift2_add_one_lt (y : Nat) : shift2 y + 1 < 8 := by unfold shift2; omega

/-- Settles O24: pixels of one byte are the same or have slots apart. -/
theorem pixelMap2IsSound : Obligations.PixelMap2IsSound := by
  refine fun w h x y hx hy => ⟨byte2_lt_len2 hx hy, shift2_add_one_lt y,
    fun x' y' _ hy' hbyte hslot => ?_⟩
  have hshift : shift2 y' = shift2 y := by rw [shift2, shift2, hslot]
  have hor := shift2_apart_of_byte2_eq hy hy' hbyte.symm
  exact hor.resolve_right (by omega)

/-- A byte holds pixels of its column alone, those of its place in the column. -/
theorem byte2_eq_iff {x y h i : Nat} (hy : y < h) :
    byte2 x y h = i ↔ i / bpc h = x ∧ i % bpc h = y / 4 := by
  have hrow := colbyte_lt_bpc hy
  rw [← colbyte_eq_div, Nat.div_mod_unique (Nat.zero_lt_of_lt hrow), and_iff_left hrow, byte2,
    Nat.add_comm, Nat.mul_comm]

/-- A bit belongs to the slot of row `y` when it is in the pair of bits that stands for `y mod 4`. -/
theorem shift2_bit_iff {y k : Nat} (hk : k < 8) :
    (shift2 y = k ∨ shift2 y + 1 = k) ↔ y % 4 = (7 - k) / 2 := by
  unfold shift2 nshift; omega

/-- The one row that bit `k` of byte `i` can stand for lies past the end of the column. -/
theorem isPadding_twoBit_iff {w h i k : Nat} (hi : i < len2 w h) (hk : k < 8) :
    isPadding .twoBit w h i k ↔ h ≤ 4 * (i % bpc h) + (7 - k) / 2 := by
  constructor
  · refine fun hpad => not_lt.1 fun hy => ?_
    have hbyte : byte2 (i / bpc h) (4 * (i % bpc h) + (7 - k) / 2) h = i :=
      (byte2_eq_iff hy).2 ⟨rfl, by omega⟩
    have hslot := (shift2_bit_iff (y := 4 * (i % bpc h) + (7 - k) / 2) hk).2 (by omega)
    exact hpad _ _ (Nat.div_lt_of_lt_mul (Nat.mul_comm w _ ▸ hi)) hy ⟨hbyte, hslot⟩
  · rintro hle x y - hy ⟨hbyte, hslot⟩
    obtain ⟨-, hmod⟩ := (byte2_eq_iff hy).1 hbyte
    have hrow := (shift2_bit_iff hk).1 hslot
    omega

/-- Settles O25: only in the last byte of a column can a row lie past the column's end. -/
theorem padding2IsLowEndOfColumn : Obligations.Padding2IsLowEndOfColumn := by
  intro w h i k hi hk
  have hpos : 0 < bpc h := Nat.pos_of_mul_pos_left (Nat.zero_lt_of_lt hi)
  have hrow : i % bpc h < bpc h := Nat.mod_lt i hpos
  obtain ⟨hle, hlt⟩ := bpc_bounds h
  rw [isPadding_twoBit_iff hi hk]
  omega

end Sys2Proof.Machine
end

section
/-! ### START2, PUT2 and PIX2 (42_packer_2bit.md R113, R115, R120) -/

namespace Sys2Proof.Machine

theorem execStart2_tooLarge {w h : Coord} {s : State} (hn : s.bufBytes < len2 w.toNat h.toNat) :
    exec (.start2 w h) s = .next (raise .eSize s) := startBuffer_tooLarge hn

/-- Settles O27: the opcode selects START2, which refuses or answers on a buffer just begun. -/
theorem start2BeginsZeroedBuffer : Obligations.Start2BeginsZeroedBuffer := by
  refine ⟨decode_mkWord 0x2, fun w h s => ⟨execStart2_tooLarge, fun hn => ?_⟩⟩
  have hzero (i : Nat) := beginBuffer_byteAt (f := .twoBit) hn (i := i)
  exact ⟨_, execStart2_fits hn, rfl, rfl, rfl, hzero⟩

theorem getLsbD_putSlot (t : Byte) (y : Nat) (g : GrayLevel) {k : Nat} (hk : k < 8) :
    (putSlot t (shift2 y) g).getLsbD k =
      if k = 6 - y % 4 * 2 then g.getLsbD 0
      else if k = 7 - y % 4 * 2 then g.getLsbD 1
      else t.getLsbD k := by
  rw [putSlot_eq_putLevel, getLsbD_putLevel t _ g hk, shift2, nshift]
  by_cases hlow : k = 6 - y % 4 * 2
  · rw [if_pos hlow, if_pos (by omega), hlow, Nat.sub_self]
  · rw [if_neg hlow]
    by_cases hhigh : k = 7 - y % 4 * 2
    · have hone : k - (6 - y % 4 * 2) = 1 := by omega
      rw [if_pos hhigh, if_pos (by omega), hone]
    · rw [if_neg hhigh, if_neg (by omega)]

section
variable {s : State} {x y : Coord} (hs : s.Inv) (hf : s.fmt = .twoBit) (hr : s.inImage x y)
include hs hf hr

/-- Past the checks, the body that PUT2 and PIX2 share writes a level and answers. -/
theorem guarded_writeLevel2_eq (g : GrayLevel) (rsp : Data) :
    guarded .twoBit x y (writeLevel2 x y g rsp) s =
      .next (respond rsp (s.withLevel .twoBit x y g)) :=
  (guarded_ok hf hr).trans (modifyByte_eq (byteAt_indexOf hs hf hr))

/-- A level of two bits replaces one slot of one byte. -/
theorem withLevel_writesSlot (g : GrayLevel) (rsp : Data) :
    WritesSlot s (respond rsp (s.withLevel .twoBit x y g)) x y g rsp := by
  refine ⟨_, putSlot _ (shift2 y.toNat) g, byteAt_indexOf hs hf hr,
    fun k => getLsbD_putSlot _ _ g, fun j => ?_, rfl⟩
  exact (withLevel_byteAt hs hf hr g j).trans (if_congr eq_comm rfl rfl)

end

/-- Settles O28: the checks come in the order of `guarded`, and past them PUT2 writes a level. -/
theorem put2ReplacesOneSlot : Obligations.Put2ReplacesOneSlot := by
  refine ⟨decode_mkWord 0x7, fun x y g s => ⟨guarded_fmt, guarded_range, fun hs hf hx hy => ?_⟩⟩
  have hr : s.inImage x y := ⟨hx, hy⟩
  exact ⟨_, guarded_writeLevel2_eq hs hf hr g 0, withLevel_writesSlot hs hf hr g 0⟩

/-- Settles O29: PIX2 and PUT2 of the level QUANT2 answers write the same level. -/
theorem pix2IsQuant2ThenPut2 : Obligations.Pix2IsQuant2ThenPut2 := by
  refine ⟨decode_mkWord 0x9, fun x y p s => ⟨guarded_fmt, guarded_range, fun hs hf hx hy => ?_⟩⟩
  have hr : s.inImage x y := ⟨hx, hy⟩
  exact ⟨quant2 Config.quantizer p, _, _, _, execQuant2_eq p s, rfl,
    guarded_writeLevel2_eq hs hf hr _ 0, guarded_writeLevel2_eq hs hf hr _ _,
    withLevel_writesSlot hs hf hr _ _, rfl⟩

end Sys2Proof.Machine
end

section
/-! ### NOP, RDBUF and RDREG (43_control_readout.md R130 to R132) -/

namespace Sys2Proof.Machine

/-- Settles O32: the opcode selects NOP, which answers 0. -/
theorem nopAnswersZero : Obligations.NopAnswersZero := ⟨decode_mkWord 0x0, execNop_eq⟩

/-- Settles O33: from `LEN` up RDBUF refuses, and below it the byte exists by the invariant. -/
theorem rdbufAnswersByte : Obligations.RdbufAnswersByte := by
  refine ⟨decode_mkWord 0xA, fun i s => ⟨execRdbuf_of_len_le, fun hs hi => ?_⟩⟩
  have hbyte := hs.byteAt_of_lt_len hi
  exact ⟨_, hbyte, execRdbuf_of_byteAt hbyte⟩

/-- Settles O34: the numbers 0 to 6 name the registers in the order of R21, and no register has a
number from 7 up. -/
theorem rdregAnswersRegister : Obligations.RdregAnswersRegister := by
  refine ⟨decode_mkWord 0xB, fun s => ⟨?_, execRdreg_of_some rfl, execRdreg_of_some rfl,
    execRdreg_of_some rfl, execRdreg_of_some rfl, execRdreg_of_some rfl, execRdreg_of_some rfl,
    fun n hn => execRdreg_of_none (register_eq_none.2 hn)⟩⟩
  have hfmt : s.register 0 = some ((formatBit s.fmt).zeroExtend 32) := rfl
  refine execRdreg_of_some (hfmt.trans ?_)
  cases s.fmt <;> rfl

end Sys2Proof.Machine
end

section
/-! ### Reading the whole artifact (43_control_readout.md R133)

A command that only answers leaves everything commands read, so a list of such commands gives the
answers each would give from the first state. -/

namespace Sys2Proof.Machine

/-- An answer already given does not change what a command answers. -/
theorem exec_answer {i : Instr} {s : State} {r : Response} (h : exec i s = .next (s.answer r))
    (q : Response) : exec i (s.answer q) = .next ((s.answer q).answer r) := by
  obtain ⟨a, ha, -, hexec⟩ := exec_portFree i s _ s.pending (s.responses ++ [q]) h
  obtain rfl : r = a := List.singleton_inj.1 (List.append_cancel_left ha)
  exact hexec

/-- Commands that only answer give their answers in order and change nothing else. -/
theorem execAll_of_answers {is : List Instr} {rs : List Response} {s : State}
    (h : List.Forall₂ (fun i r => exec i s = .next (s.answer r)) is rs) :
    execAll is s = .next { s with responses := s.responses ++ rs } := by
  induction is generalizing rs s with
  | nil =>
    cases h
    rw [execAll, List.append_nil]
  | cons i is ih =>
    obtain ⟨r, rs, hi, his, rfl⟩ := List.forall₂_cons_left_iff.1 h
    have hrest := ih (his.imp fun _ _ hj => exec_answer hj r)
    rw [execAll, hi, List.append_cons]
    exact hrest

theorem packedBuffer_bytes_length (s : State) : s.packedBuffer.bytes.length = s.len := by
  rw [State.packedBuffer, List.length_map, List.length_range]

theorem packedBuffer_bytes_getElem? {s : State} (hs : s.Inv) {i : Nat} (hi : i < s.len) :
    s.packedBuffer.bytes[i]? = s.byteAt i := by
  rw [hs.byteAt_of_lt_len hi, State.packedBuffer, List.getElem?_map, List.getElem?_range hi,
    Option.map_some]

/-- An index below `LEN` fits the field `d`. -/
theorem toNat_ofNat_of_lt_len {s : State} {i : Nat} (hi : i < s.len) :
    (BitVec.ofNat 32 i).toNat = i := by
  obtain ⟨-, hlen⟩ := pitch_len_le s
  exact Nat.mod_eq_of_lt (by omega)

theorem execRdbuf_of_lt_len {s : State} (hs : s.Inv) {i : Nat} (hi : i < s.len) :
    exec (.rdbuf (BitVec.ofNat 32 i)) s =
      .next (s.answer ⟨.ok, (s.buf.get i).zeroExtend 32⟩) := by
  refine execRdbuf_of_byteAt ?_
  rw [toNat_ofNat_of_lt_len hi, hs.byteAt_of_lt_len hi]

/-- Each read-out command gives its part of the artifact. -/
theorem readoutCommands_answers {s : State} (hs : s.Inv) :
    List.Forall₂ (fun i r => exec i s = .next (s.answer r)) (readoutCommands s.len)
      s.packedBuffer.answers := by
  rw [PackedBuffer.answers, packedBuffer_bytes_length]
  refine .cons (execRdreg_of_some rfl) <| .cons (execRdreg_of_some rfl) <|
    .cons (execRdreg_of_some rfl) <| .cons (execRdreg_of_some rfl) ?_
  refine List.forall₂_map_left_iff.2 <| List.forall₂_map_right_iff.2 <|
    List.forall₂_map_right_iff.2 <| List.forall₂_same.2 fun i hi => ?_
  exact execRdbuf_of_lt_len hs (List.mem_range.1 hi)

/-- Settles O35: the commands only answer, and the bytes answered are those below `LEN`. -/
theorem readoutGivesPackedBuffer : Obligations.ReadoutGivesPackedBuffer := fun s hs =>
  ⟨execAll_of_answers (readoutCommands_answers hs), packedBuffer_bytes_length s,
    fun _ => packedBuffer_bytes_getElem? hs⟩

end Sys2Proof.Machine
end

section
/-! ### The causes of the errors (60_exceptions.md R140, R143)

`RaisesExactly cause s t` is what the claim says of one command: the answer it adds carries an error
exactly where the table gives a cause of that error. -/

namespace Sys2Proof.Machine

/-- `t` has one response more than `s`, which is the error `e` exactly where `cause e` holds. -/
def RaisesExactly (cause : CmdError → Prop) (s t : State) : Prop :=
  ∃ r : Response, t.responses = s.responses ++ [r] ∧ ∀ e, r.code = .err e ↔ cause e

theorem raisesExactly_raise {cause : CmdError → Prop} {e : CmdError} (s : State)
    (h : ∀ e', cause e' ↔ e' = e) : RaisesExactly cause s (raise e s) :=
  ⟨⟨.err e, 0⟩, rfl, fun e' => by rw [h, RspCode.err.injEq, eq_comm]⟩

theorem raisesExactly_ok {cause : CmdError → Prop} {s t : State} {v : Data}
    (ht : t.responses = s.responses ++ [⟨.ok, v⟩]) (h : ∀ e, ¬ cause e) : RaisesExactly cause s t :=
  ⟨⟨.ok, v⟩, ht, fun e => iff_of_false nofun (h e)⟩

/-- Where the one cause of a command is that of the error `e`: it is raised where `p` holds, and else
the command succeeds. -/
theorem raisesExactly_of_cases {p : Prop} {e : CmdError} {s t : State}
    (h : p ∧ t = raise e s ∨ ¬ p ∧ ∃ v, t.responses = s.responses ++ [⟨.ok, v⟩]) :
    RaisesExactly (fun e' => e' = e ∧ p) s t := by
  rcases h with ⟨hp, rfl⟩ | ⟨hp, v, ht⟩
  · exact raisesExactly_raise s fun e' => and_iff_left hp
  · exact raisesExactly_ok ht fun e' he => hp he.2

/-- A PUT or PIX raises `E_FMT` before `E_RANGE`, and no other error. -/
theorem PixelWrite.raisesExactly {f : Format} {x y : Coord} {i : Nat} {change : Byte → Byte}
    {v : Data} {s t : State} (h : PixelWrite f x y i change v s t) :
    RaisesExactly (pixelCause f x y s) s t := by
  rcases h with ⟨hf, rfl⟩ | ⟨hf, hr, rfl⟩ | ⟨hf, hr, b, -, rfl⟩
  · exact raisesExactly_raise s fun e => by cases e <;> simp [pixelCause, hf]
  · exact raisesExactly_raise s fun e => by cases e <;> simp [pixelCause, hf, hr]
  · exact raisesExactly_ok rfl fun e => by cases e <;> simp [pixelCause, hf, hr]

theorem startBuffer_raisesExactly {f : Format} {w h : Coord} {n : Nat} {s t : State}
    (hs : startBuffer f w h n s = .next t) :
    RaisesExactly (fun e => e = .eSize ∧ s.bufBytes < n) s t := by
  refine raisesExactly_of_cases ?_
  rcases startBuffer_cases hs with ⟨hn, ht⟩ | ⟨hn, rfl⟩
  · exact .inl ⟨hn, ht⟩
  · exact .inr ⟨not_lt.2 hn, _, rfl⟩

theorem execRdbuf_raisesExactly {i : Data} {s t : State} (h : exec (.rdbuf i) s = .next t) :
    RaisesExactly (fun e => e = .eRange ∧ s.len ≤ i.toNat) s t := by
  refine raisesExactly_of_cases ?_
  rcases execRdbuf_cases h with ⟨hi, ht⟩ | ⟨b, hb, rfl⟩
  · exact .inl ⟨hi, ht⟩
  · obtain ⟨⟨hi, -⟩, -⟩ := byteAt_eq_some.1 hb
    exact .inr ⟨not_le.2 hi, _, rfl⟩

theorem execRdreg_raisesExactly {n : Coord} {s t : State} (h : exec (.rdreg n) s = .next t) :
    RaisesExactly (fun e => e = .eOp ∧ 7 ≤ n.toNat) s t := by
  refine raisesExactly_of_cases ?_
  rcases execRdreg_cases h with ⟨v, hv, rfl⟩ | ⟨hv, ht⟩
  · exact .inr ⟨fun hn => (nomatch hv.symm.trans (register_eq_none.2 hn)), _, rfl⟩
  · exact .inl ⟨register_eq_none.1 hv, ht⟩

/-- A command that goes on raises an error exactly where the table of R140 says. -/
theorem exec_raisesExactly {i : Instr} {s t : State} (h : exec i s = .next t) :
    RaisesExactly (fun e => errorCause e s i) s t := by
  cases i with
  | nop | lum _ | quant1 _ | quant2 _ =>
    cases h
    exact raisesExactly_ok rfl fun _ => id
  | start1 _ _ | start2 _ _ => exact startBuffer_raisesExactly h
  | put1 _ _ _ => exact (execPut1_cases h).raisesExactly
  | put2 _ _ _ => exact (execPut2_cases h).raisesExactly
  | pix1 _ _ _ => exact (execPix1_cases h).raisesExactly
  | pix2 _ _ _ => exact (execPix2_cases h).raisesExactly
  | rdbuf _ => exact execRdbuf_raisesExactly h
  | rdreg _ => exact execRdreg_raisesExactly h

/-- What is pending is no part of a cause. -/
theorem errorCause_pending (e : CmdError) (s : State) (p : List HostEvent) (i : Instr) :
    errorCause e { s with pending := p } i = errorCause e s i := by
  cases i <;> rfl

theorem step_word_raisesExactly {s t : State} {w : CmdWord} {rest : List HostEvent}
    (hp : s.pending = .command w :: rest) (h : step s = .next t) :
    RaisesExactly (fun e => wordErrorCause e s w) s t := by
  unfold wordErrorCause
  cases hd : decode w with
  | ok i =>
    rw [step_of_decode_ok hp hd] at h
    obtain ⟨r, hr, hcause⟩ := exec_raisesExactly h
    exact ⟨r, hr, fun e => (hcause e).trans (errorCause_pending e s rest i).to_iff⟩
  | error _ =>
    rw [step_of_decode_error hp hd] at h
    cases h
    exact raisesExactly_raise _ fun _ => Iff.rfl

/-- Settles O36: a presented word is dealt with in every state of the invariant, and each command
raises exactly its own causes. -/
theorem errorsHaveExactlyTheirCauses : Obligations.ErrorsHaveExactlyTheirCauses := by
  refine ⟨⟨rfl, rfl, rfl, rfl⟩, ⟨rfl, rfl, rfl, rfl⟩, fun s w rest hs hp => ?_⟩
  obtain ⟨t, -, ht, -⟩ := step_word_answers_once hs hp
  obtain ⟨r, hr, hcause⟩ := step_word_raisesExactly hp ht
  exact ⟨t, r, ht, hr, hcause⟩

end Sys2Proof.Machine
end

section
/-! ### What an error changes, and the commands that raise none (60_exceptions.md R141, R142, R144) -/

namespace Sys2Proof.Machine

/-- A word that answers an error has raised it, and done nothing else. -/
theorem CommandEffect.eq_raise {s t : State} {e : CmdError} {v : Data} (h : CommandEffect s t)
    (hr : t.responses = s.responses ++ [⟨.err e, v⟩]) : v = 0 ∧ t = raise e s := by
  rcases h with ⟨e', rfl⟩ | ⟨v', rfl⟩ | ⟨v', j, b, b', -, rfl⟩ | ⟨v', f, w, h', -, rfl⟩
  · obtain ⟨rfl, rfl⟩ : e' = e ∧ 0 = v := by simpa using hr
    exact ⟨rfl, rfl⟩
  all_goals simp at hr

/-- Settles O38: the effect of a word that answers an error is `raise`, whose bit is the one R142
writes. -/
theorem raisingChangesOnlyErr : Obligations.RaisingChangesOnlyErr := by
  intro s t w rest e v hp h hr
  obtain ⟨hv, rfl⟩ := (step_word_effect hp h).eq_raise hr
  exact ⟨hv, by cases e <;> rfl⟩

/-- Settles O37: the pixel commands and NOP only answer, and the numbers up to 6 name registers. -/
theorem someCommandsNeverRaise : Obligations.SomeCommandsNeverRaise := by
  rintro i s (rfl | ⟨p, rfl⟩ | ⟨p, rfl⟩ | ⟨p, rfl⟩ | ⟨n, rfl, hn⟩)
  · exact ⟨_, execNop_eq s⟩
  · exact ⟨_, execLum_eq p s⟩
  · exact ⟨_, execQuant1_eq p s⟩
  · exact ⟨_, execQuant2_eq p s⟩
  · have hreg : s.register n.toNat ≠ none := register_eq_none.not.2 (by omega)
    obtain ⟨v, hv⟩ := Option.ne_none_iff_exists'.1 hreg
    exact ⟨v, execRdreg_of_some hv⟩

end Sys2Proof.Machine
end

section
/-! ### Reset, the idle step, and no stop (70_reset_and_hazards.md R160, R168, R169) -/

namespace Sys2Proof.Machine

theorem step_of_idle {s : State} (hp : s.pending = []) : step s = .next s := by
  simp only [step, hp]

/-- No step stops in a state that meets the invariant. -/
theorem step_goes_on {s : State} (hs : s.Inv) : ∃ t, step s = .next t := by
  match hp : s.pending with
  | [] => exact ⟨s, step_of_idle hp⟩
  | .reset :: _ => exact ⟨_, step_of_reset hp⟩
  | .command _ :: _ =>
    obtain ⟨t, -, ht, -⟩ := step_word_answers_once hs hp
    exact ⟨t, ht⟩

/-- Settles O49: a step goes on, and where it goes on it keeps the invariant. -/
theorem blockNeverStops : Obligations.BlockNeverStops := by
  intro s hs
  obtain ⟨t, ht⟩ := step_goes_on hs
  exact ⟨t, ht, stepKeepsInvariant s t hs ht⟩

/-- Settles O44: `LEN` is 0 after a reset, so RDBUF finds every index out of range. -/
theorem resetEventResetsBlock : Obligations.ResetEventResetsBlock := by
  intro s rest hp
  have hlen : { s with pending := rest }.resetBlock.len = 0 := resetBlock_len _
  exact ⟨_, step_of_reset hp, rfl, resetBlock_pitch _, hlen, rfl,
    fun _ => execRdbuf_of_len_le (hlen ▸ Nat.zero_le _)⟩

/-- Settles O46, the step's case of nothing presented. -/
theorem idleStepWaits : Obligations.IdleStepWaits := fun _ => step_of_idle

end Sys2Proof.Machine
end

section
/-! ### A whole image (00_scope.md R2, 20_memory.md R42, 70_reset_and_hazards.md R163)

A START that fits, then one write of a level per pixel, is a list of writes onto a buffer of zeros whose
last levels are those of the image; shown once for both formats. -/

namespace Sys2Proof.Machine

/-- The writes that give the pixels of `order` the levels of a picture. -/
def pictureWrites {f : Format} (picture : Coord → Coord → Level f) (order : List (Coord × Coord)) :
    List (Coord × Coord × Level f) :=
  order.map fun q => (q.1, q.2, picture q.1 q.2)

theorem pictureWrites_cons {f : Format} (picture : Coord → Coord → Level f) (q : Coord × Coord)
    (qs : List (Coord × Coord)) : pictureWrites picture (q :: qs) =
      (q.1, q.2, picture q.1 q.2) :: pictureWrites picture qs := rfl

/-- However often a pixel is written, its last level is that of the picture. -/
theorem lastLevel_pictureWrites {f : Format} (picture : Coord → Coord → Level f)
    (order : List (Coord × Coord)) (x y : Coord) :
    lastLevel (pictureWrites picture order) x y =
      if (x, y) ∈ order then some (picture x y) else none := by
  induction order with
  | nil => rfl
  | cons q qs ih =>
    rw [pictureWrites_cons, lastLevel_cons, ih]
    by_cases hq : (x, y) = q
    · subst hq
      simp only [List.mem_cons_self, and_self, if_true]
      split <;> rfl
    · have hne : ¬ (x = q.1 ∧ y = q.2) := fun h => hq (Prod.ext h.1 h.2)
      simp [hq, hne]

/-- The buffer of `t` is the `w` by `h` picture in the format `f`, with zero padding, and `ERR` is
`err`. -/
def HoldsPicture (f : Format) (w h : Coord) (err : BitVec 4) (picture : Coord → Coord → Level f)
    (t : State) : Prop :=
  t.fmt = f ∧ t.w = w ∧ t.h = h ∧ t.err = err ∧ t.PaddingZero ∧
    ∀ x y : Coord, t.inImage x y → t.level f x y = some (picture x y)

theorem Written.keepsPadding {f : Format} {writes : List (Coord × Coord × Level f)} {s t : State}
    (h : Written writes s t) (hf : s.fmt = f) : KeepsPadding s t := by
  refine ⟨?_, fun i k hk hpad => h.padding i k hk (hf ▸ hpad)⟩
  rw [h.frame]
  exact ⟨rfl, rfl, rfl⟩

/-- Writing every pixel of a picture onto zero padding leaves the picture. -/
theorem Written.holdsPicture {f : Format} {picture : Coord → Coord → Level f}
    {order : List (Coord × Coord)} {s t : State} (h : Written (pictureWrites picture order) s t)
    (hf : s.fmt = f) (hz : s.PaddingZero) (horder : ∀ x y, s.inImage x y → (x, y) ∈ order) :
    HoldsPicture f s.w s.h s.err picture t := by
  have hkeeps := h.keepsPadding hf
  have herr : t.err = s.err := by rw [h.frame]
  obtain ⟨hfmt, hw, hh⟩ := hkeeps.1
  refine ⟨hfmt.trans hf, hw, hh, herr, hkeeps.paddingZero hz, fun x y hr => ?_⟩
  rw [State.inImage, hw, hh] at hr
  rw [h.level x y hr, lastLevel_pictureWrites, if_pos (horder x y hr), Option.some_or]

/-- A START that fits and a command per pixel, in any order, run to their end and leave the picture. -/
theorem execAll_start_holdsPicture {f : Format} {w h : Coord} {start : Instr} {rsp : Data}
    {cmd : Coord → Coord → Instr} {picture : Coord → Coord → Level f}
    {order : List (Coord × Coord)} {s : State} (hs : s.Inv) (hn : lenOf f w h ≤ s.bufBytes)
    (hstart : exec start s = .next (respond rsp (s.beginBuffer f w h)))
    (hcmd : ∀ x y, WritesLevel f (cmd x y) x y (picture x y))
    (horder : ∀ x y : Coord, (x, y) ∈ order ↔ x.toNat < w.toNat ∧ y.toNat < h.toNat) :
    ∃ t, execAll (start :: order.map fun q => cmd q.1 q.2) s = .next t ∧
      HoldsPicture f w h s.err picture t := by
  have hwrites : ∀ q ∈ pictureWrites picture order, WritesLevel f (cmd q.1 q.2.1) q.1 q.2.1 q.2.2 :=
    List.forall_mem_map.2 fun q _ => hcmd q.1 q.2
  have hin : ∀ q ∈ pictureWrites picture order,
      (respond rsp (s.beginBuffer f w h)).inImage q.1 q.2.1 :=
    List.forall_mem_map.2 fun q hq => (horder q.1 q.2).1 hq
  obtain ⟨t, hrun, ht⟩ := execAll_written (fun q => cmd q.1 q.2.1) hwrites
    ((hs.beginBuffer hn).respond rsp) rfl hin
  refine ⟨t, ?_, ht.holdsPicture rfl (paddingZero_of_buf_nil rfl) fun x y => (horder x y).2⟩
  rw [pictureWrites, List.map_map] at hrun
  rw [execAll, hstart]
  exact hrun

theorem pix1_writesLevel (x y : Coord) (p : Pixel) :
    WritesLevel .oneBit (.pix1 x y p) x y (quant1 Config.quantizer p) := fun _ hs hf hr =>
  ⟨_, execPix1_eq hs hf hr p⟩

theorem pix2_writesLevel (x y : Coord) (p : Pixel) :
    WritesLevel .twoBit (.pix2 x y p) x y (quant2 Config.quantizer p) := fun _ hs hf hr =>
  ⟨_, guarded_writeLevel2_eq hs hf hr _ _⟩

/-- Settles O55, as the picture of the quantized levels in the 1-bit format. -/
theorem wholeImagePacks1 : Obligations.WholeImagePacks1 := fun _ _ image _ _ hs hn horder =>
  execAll_start_holdsPicture (f := .oneBit) hs hn (execStart1_fits hn)
    (fun x y => pix1_writesLevel x y (image x y)) horder

/-- Settles O56, as the picture of the quantized levels in the 2-bit format. -/
theorem wholeImagePacks2 : Obligations.WholeImagePacks2 := fun _ _ image _ _ hs hn horder =>
  execAll_start_holdsPicture (f := .twoBit) hs hn (execStart2_fits hn)
    (fun x y => pix2_writesLevel x y (image x y)) horder

end Sys2Proof.Machine
end
